-- ==== Sys2Proof/Word.lean ====
section
/-! DEFINITION. The word types of the PicoKeyer BitBuffer codec.

A word `x` numbers its bits from the least significant (`x[0]` has weight 1), the store numbers its bits from the
most significant (`S[0]` is the first bit of the logical string): 00_scope.md section 6. -/

namespace Sys2Proof

/-- One payload byte (20_memory.md R30). -/
abbrev Byte := BitVec 8

/-- The 16 bits of a value, of a result and of a record register (10_state.md R17, 30_encoding.md R51, R58). -/
abbrev Half := BitVec 16

/-- The five bits of the command word's `w` field (30_encoding.md R51). -/
abbrev WField := BitVec 5

/-- One 32-bit command word (30_encoding.md R50). -/
abbrev CmdWord := BitVec 32

/-- The bit store: a string of 128 bits, the first of which is the most significant (10_state.md R10). -/
abbrev Store := BitVec 128

/-- An 8-bit pointer register (10_state.md R12, R13). -/
abbrev Pointer := BitVec 8

end Sys2Proof
end

