-- ==== Sys2Proof/Config.lean ====
section
/-! DEFINITION. What the implementation fixes: the parameters of 00_scope.md R5, the names of the schema fields, and the
one open parameter, the host's rounding function, whose type is in Sys2Proof/Machine/Wpm.lean.

`STRICT` is absent (R5, D21): there is nothing to configure for it. -/

namespace Sys2Proof.Config

/-- `CAP`, the length of the bit store in bits (R5; this hardware fixes it at 128, log entry 1). -/
abbrev cap : Nat := 128

/-- `NBYTES = ceil(CAP/8)`, the bytes of storage (R5). -/
abbrev nBytes : Nat := (cap + 7) / 8

/-- `MAXW`, the largest field width an operation accepts (R5, R53). -/
abbrev maxW : Nat := 16

/-- `MAXIN = floor(CAP/7)`, the largest septet count FROMSEPTETS accepts (R5). -/
abbrev maxIn : Nat := cap / 7

/-- `MAXOUT = ceil(CAP/7)`, the largest septet count TOSEPTETS produces (R5). -/
abbrev maxOut : Nat := (cap + 6) / 7

/-- `NFIELD`, the fields of the configuration schema, which is the number of record registers (R5, R17). -/
abbrev nField : Nat := 14

end Sys2Proof.Config

namespace Sys2Proof

/-- The names of the fields of the two schemas (10_state.md R18, 42_schema_codec.md R124, R125). -/
inductive FieldName where
  | keyMode | pinMode | ledMode | gpioOutputMode
  | output | normalLED | rgbLED | ditPaddle | dahPaddle | straightKey
  | wpm100 | channel | note | volume
  | version
  deriving DecidableEq, Repr

end Sys2Proof
end

