-- ==== Sys2Proof/Syntax.lean ====
section
/-! DEFINITION. The commands, one constructor per row of spec/opcode_table.json.

The payload of FROMSEPTETS, DECCFG and DECVER is not part of the command word: it is a separate operand delivered with
it (30_encoding.md R50). A constructor therefore holds the word's operands, `n` among them, and the payload itself stands
on the payload-in channel of State. -/

namespace Sys2Proof

/-- A command of the block (30_encoding.md R52). -/
inductive Instr where
  /-- CLEAR (40_bitbuffer_ops.md R80). -/
  | clear
  /-- ADDFIELD `w, v` (40_bitbuffer_ops.md R81). -/
  | addField (w : WField) (v : Half)
  /-- EXTRACT `w` (40_bitbuffer_ops.md R82). -/
  | extract (w : WField)
  /-- TOSEPTETS (41_septet_ops.md R100). -/
  | toSeptets
  /-- FROMSEPTETS with a payload of `n` bytes (41_septet_ops.md R104). -/
  | fromSeptets (n : Half)
  /-- SETREC `i, v` (42_schema_codec.md R121). -/
  | setRec (i : WField) (v : Half)
  /-- GETREC `i` (42_schema_codec.md R122). -/
  | getRec (i : WField)
  /-- ENCCFG (42_schema_codec.md R126). -/
  | encCfg
  /-- DECCFG with a payload of `n` bytes (42_schema_codec.md R127). -/
  | decCfg (n : Half)
  /-- ENCVER `v` (42_schema_codec.md R128). -/
  | encVer (v : Half)
  /-- DECVER with a payload of `n` bytes (42_schema_codec.md R129). -/
  | decVer (n : Half)
  deriving DecidableEq, Repr

end Sys2Proof
end

