-- ==== Sys2Proof/WellFormed.lean ====
section
/-! DEFINITION. Which commands are legal: the range limits of 30_encoding.md R53 that the fields' widths do not already
impose. Every other illegal word of R57 is no command at all and has no term of `Instr`. -/

namespace Sys2Proof

/-- A field width is legal when it is in 0..16 (R53). -/
def widthOk (w : WField) : Bool := decide (w.toNat ≤ Config.maxW)

/-- A record register number is legal when it is in 0..13 (R53). -/
def regOk (i : WField) : Bool := decide (i.toNat < Config.nField)

/-- The legal commands: a width in 0..16 for ADDFIELD and EXTRACT, a register in 0..13 for SETREC and GETREC (R53). -/
def Instr.wf : Instr → Bool
  | .clear => true
  | .addField w _ => widthOk w
  | .extract w => widthOk w
  | .toSeptets => true
  | .fromSeptets _ => true
  | .setRec i _ => regOk i
  | .getRec i => regOk i
  | .encCfg => true
  | .decCfg _ => true
  | .encVer _ => true
  | .decVer _ => true

end Sys2Proof
end

