-- ==== Sys2Proof/Decode.lean ====
section
/-! DEFINITION. The command word: its fields (30_encoding.md R51), the decoder (R52, R53, R57), the payload count (R56)
and the encoder (R61). -/

namespace Sys2Proof

/-- Bits 31:28, the opcode (R51). -/
def opField (word : CmdWord) : BitVec 4 := word.extractLsb' 28 4

/-- Bits 27:21, which must be zero (R51). -/
def zField (word : CmdWord) : BitVec 7 := word.extractLsb' 21 7

/-- Bits 20:16, the width or the register number (R51). -/
def wField (word : CmdWord) : WField := word.extractLsb' 16 5

/-- Bits 15:0, the value or the payload count (R51). -/
def vField (word : CmdWord) : Half := word.extractLsb' 0 16

/-- Why a command word is illegal: the six cases of R57, in its order. -/
inductive Illegal where
  /-- `op` is 0x0 or 0xC..0xF. -/
  | reservedOpcode
  /-- `z` is not zero. -/
  | zNotZero
  /-- `w` is not zero for an opcode whose row shows `w` = 0. -/
  | wNotZero
  /-- `v` is not zero for an opcode whose row shows `v` = 0. -/
  | vNotZero
  /-- ADDFIELD or EXTRACT with `w > 16`. -/
  | widthOutOfRange
  /-- SETREC or GETREC with `w > 13`. -/
  | registerOutOfRange
  deriving DecidableEq, Repr

/-- The operands as they stand in the word, once `z` is known to be zero: one arm per row of R52. -/
def decodeOperands (op : BitVec 4) (w : WField) (v : Half) : Except Illegal Instr :=
  match op.toNat with
  | 0x1 => if w ≠ 0 then .error .wNotZero else if v ≠ 0 then .error .vNotZero else .ok .clear
  | 0x2 => if widthOk w then .ok (.addField w v) else .error .widthOutOfRange
  | 0x3 => if v ≠ 0 then .error .vNotZero else if widthOk w then .ok (.extract w) else .error .widthOutOfRange
  | 0x4 => if w ≠ 0 then .error .wNotZero else if v ≠ 0 then .error .vNotZero else .ok .toSeptets
  | 0x5 => if w ≠ 0 then .error .wNotZero else .ok (.fromSeptets v)
  | 0x6 => if regOk w then .ok (.setRec w v) else .error .registerOutOfRange
  | 0x7 => if v ≠ 0 then .error .vNotZero else if regOk w then .ok (.getRec w) else .error .registerOutOfRange
  | 0x8 => if w ≠ 0 then .error .wNotZero else if v ≠ 0 then .error .vNotZero else .ok .encCfg
  | 0x9 => if w ≠ 0 then .error .wNotZero else .ok (.decCfg v)
  | 0xA => if w ≠ 0 then .error .wNotZero else .ok (.encVer v)
  | 0xB => if w ≠ 0 then .error .wNotZero else .ok (.decVer v)
  | _ => .error .reservedOpcode

/-- The decoder, total on all words: the command of a legal word (R52), or the name of a reason why the word is illegal
(R57). Which reason is named where several hold is not observable (log entry 11). -/
def decode (word : CmdWord) : Except Illegal Instr :=
  if zField word ≠ 0 then .error .zNotZero else decodeOperands (opField word) (wField word) (vField word)

/-- The number of payload bytes a command takes: `v` for FROMSEPTETS, DECCFG and DECVER, 0 otherwise (R56). -/
def payloadCount : Instr → Nat
  | .clear => 0
  | .addField _ _ => 0
  | .extract _ => 0
  | .toSeptets => 0
  | .fromSeptets n => n.toNat
  | .setRec _ _ => 0
  | .getRec _ => 0
  | .encCfg => 0
  | .decCfg n => n.toNat
  | .encVer _ => 0
  | .decVer n => n.toNat

/-- The four fields laid side by side, `op` on top (R51). -/
def packWord (op : BitVec 4) (w : WField) (v : Half) : CmdWord := op ++ 0#7 ++ w ++ v

/-- The encoder: the word of a command, from the table of R61. -/
def encode : Instr → CmdWord
  | .clear => packWord 0x1 0 0
  | .addField w v => packWord 0x2 w v
  | .extract w => packWord 0x3 w 0
  | .toSeptets => packWord 0x4 0 0
  | .fromSeptets n => packWord 0x5 0 n
  | .setRec i v => packWord 0x6 i v
  | .getRec i => packWord 0x7 i 0
  | .encCfg => packWord 0x8 0 0
  | .decCfg n => packWord 0x9 0 n
  | .encVer v => packWord 0xA 0 v
  | .decVer n => packWord 0xB 0 n

/-- The word that spec/opcode_table.json's numbering gives: bit 0 of `w` is bit 0 of the word, and every bit at or above
`nbits` is 0. A word is taken off a 32-bit port (R50), so no byte order enters. -/
def tableWord (nbits w : Nat) : CmdWord := BitVec.ofNat 32 (w % 2 ^ nbits)

/-- The command that the decoder reads from a word numbered as spec/opcode_table.json numbers it. -/
def decodeTableWord (nbits w : Nat) : Option Instr := (decode (tableWord nbits w)).toOption

end Sys2Proof
end

