-- ==== Sys2Proof/Machine/State.lean ====
section
/-! DEFINITION. The state of the block, the channels between it and its host, and the state after reset.

Architectural state (10_state.md): the bit store `S`, the write pointer `U`, the read cursor `C` and the record registers
`R[0..13]`. Beside it stands what the spec gives the interface (00_scope.md R8, R9; 70_reset_and_hazards.md R189): the
host's moves, the payload-in channel, the command that waits for its payload, and the responses returned. -/

namespace Sys2Proof.Machine

/-- The status of a response (30_encoding.md R59). -/
inductive Status where
  /-- 0, success. -/
  | ok
  /-- 1, PK's `CapacityExceeded`. -/
  | errCapacity
  /-- 2, PK's `MalformedPayload`. -/
  | errMalformed
  /-- 3, an illegal command word. -/
  | errIllegal
  deriving DecidableEq, Repr

/-- One response: `status`, `result` and the payload out, byte position 0 first (30_encoding.md R58). -/
structure Response where
  status : Status
  result : Half
  payload : List Byte
  deriving DecidableEq, Repr

/-- Layer 1, one BitBuffer: the store `S`, the write pointer `U` and the read cursor `C` (10_state.md R10, R12, R13). -/
structure BitBuffer where
  store : Store
  used : Pointer
  cursor : Pointer
  deriving DecidableEq, Repr

/-- The record registers `R[0]` to `R[13]` (10_state.md R17). -/
abbrev Records := Vector Half 14

/-- What the host can do (00_scope.md R9): assert `rst`, or issue one command word with the payload bytes it sends along.
The host accepts every response at once, so accepting is no move of its own (log entry 8). -/
inductive HostMove where
  /-- One pulse of `rst` (70_reset_and_hazards.md R180). -/
  | rst
  /-- A command word and the bytes the host puts on the payload-in channel with it. -/
  | command (word : CmdWord) (payload : List Byte)
  deriving DecidableEq, Repr

/-- The block and its channels. -/
structure State where
  /-- The one BitBuffer of this instance (10_state.md R25). -/
  buf : BitBuffer
  /-- The record registers (10_state.md R17). -/
  recs : Records
  /-- The moves the host has yet to make, next first (00_scope.md R9; log entry 3). -/
  host : List HostMove
  /-- The bytes on the payload-in channel that no completed command has taken, first byte first (R189; log entry 6). -/
  din : List Byte
  /-- The command that has been accepted and waits for payload bytes, if any (R189; log entry 5). -/
  busy : Option Instr
  /-- The responses of this run, oldest first (00_scope.md R9; log entry 8). -/
  responses : List Response
  deriving DecidableEq, Repr

/-- No event stops this block: a failing command is a response and a short payload is a wait, so nobody raises a fault and
the type has no constructor (60_exceptions.md R150, R158; log entry 9). That is safe: no claim can rest on a stop. -/
inductive Fault : Type
  deriving DecidableEq, Repr

/-- Why an instruction has no meaning. -/
inductive Refusal where
  /-- Raised by an arm of `exec` whose instruction has no meaning yet; no arm of this model raises it. Safe: it stops. -/
  | notModelled (mnemonic : String)
  deriving DecidableEq, Repr

/-- The fresh buffer: `S = 0, U = 0, C = 0` (70_reset_and_hazards.md R181). -/
def BitBuffer.reset : BitBuffer := { store := 0, used := 0, cursor := 0 }

/-- The machine right after reset (70_reset_and_hazards.md R181): a fresh buffer, all record registers 0, nothing on any
channel and no response returned. -/
def State.reset : State :=
  { buf := BitBuffer.reset
    recs := Vector.replicate 14 0
    host := []
    din := []
    busy := none
    responses := [] }

end Sys2Proof.Machine
end

