-- ==== Sys2Proof/Machine/Ops.lean ====
section
/-! DEFINITION. The named operations: the pseudocode primitives of 00_scope.md section 6 over the store, the one way a
command ends (a response, or a failure with no effect), and the block's two other moves, taking a command and reset. -/

namespace Sys2Proof.Machine

/-! ### The bit store -/

/-- `S[i]`, counted from the first bit of the logical string (10_state.md R10). -/
def bitAt (S : Store) (i : Nat) : Bool := S.getMsbD i

/-- `S[i] <- b`. There is no bit at or beyond `CAP` to write (log entry 10). -/
def setBit (S : Store) (i : Nat) (b : Bool) : Store :=
  if i < Config.cap then
    if b then S ||| BitVec.twoPow 128 (Config.cap - 1 - i) else S &&& ~~~(BitVec.twoPow 128 (Config.cap - 1 - i))
  else S

/-- The bits `f 0, f 1, ..., f (w-1)` read as an unsigned integer, `f 0` the most significant (00_scope.md section 6). -/
def natOfBits (f : Nat → Bool) : Nat → Nat
  | 0 => 0
  | w + 1 => 2 * natOfBits f w + (f w).toNat

/-- `S[a+j] <- f j` for `j` in `0..w-1`; other bits unchanged. -/
def writeBits (S : Store) (a : Nat) (f : Nat → Bool) : Nat → Store
  | 0 => S
  | w + 1 => setBit (writeBits S a f w) (a + w) (f w)

/-- `BitRead(a, w)`: `S[a +: w]` as an unsigned integer of `w` bits (00_scope.md section 6, 20_memory.md R31). -/
def bitRead (S : Store) (a w : Nat) : Nat := natOfBits (fun j => bitAt S (a + j)) w

/-- `BitWrite(a, w, v)`: for `j` in `0..w-1`, `S[a+j] <- v[w-1-j]` (00_scope.md section 6, 20_memory.md R31). -/
def bitWrite {n : Nat} (S : Store) (a w : Nat) (v : BitVec n) : Store :=
  writeBits S a (fun j => v.getLsbD (w - 1 - j)) w

/-- `ZeroStore()` (00_scope.md section 6). -/
def zeroStore : Store := 0

/-! ### Views of the state that the spec names -/

/-- Byte `k` of the byte view of the store, `S[8k +: 8]` (10_state.md R11). -/
def storeByte (S : Store) (k : Nat) : Byte := BitVec.ofNat 8 (bitRead S (8 * k) 8)

/-- The written part of the store, `S[0 +: U]`, as a string of bits, first bit first (10_state.md R12). -/
def BitBuffer.bits (b : BitBuffer) : List Bool := (List.range b.used.toNat).map (bitAt b.store)

/-- The number view `N` of the written part (10_state.md R15). -/
def BitBuffer.number (b : BitBuffer) : Nat := bitRead b.store 0 b.used.toNat

/-- The output `used` (10_state.md R21). -/
def State.usedOut (s : State) : BitVec 8 := s.buf.used

/-- The output `cursor` (10_state.md R21). -/
def State.cursorOut (s : State) : BitVec 8 := s.buf.cursor

/-- The constant output `capacity` (10_state.md R21). -/
def State.capacityOut (_ : State) : BitVec 8 := BitVec.ofNat 8 Config.cap

/-- The number of a status (30_encoding.md R59). -/
def Status.code : Status → BitVec 2
  | .ok => 0
  | .errCapacity => 1
  | .errMalformed => 2
  | .errIllegal => 3

/-- The payload-out byte count of a response, a 5-bit count (30_encoding.md R58, 00_scope.md R8). -/
def Response.mlen (r : Response) : BitVec 5 := BitVec.ofNat 5 r.payload.length

/-! ### How a command ends -/

/-- `respond(status, result, payload)`: the command ends with this response (30_encoding.md R58). -/
def State.respond (s : State) (status : Status) (result : Half) (payload : List Byte) : State :=
  { s with busy := none, responses := s.responses ++ [{ status := status, result := result, payload := payload }] }

/-- `fail <Status>`, the one shared way to fail: the response carries the status, result 0 and no payload, and neither the
buffer nor any record register changes (60_exceptions.md R158). No handler is entered, so there is nothing to return
from (R160). -/
def State.fail (s : State) (status : Status) : State := s.respond status 0 []

/-- The state with another buffer. -/
def State.withBuf (s : State) (b : BitBuffer) : State := { s with buf := b }

/-- The state with other record registers. -/
def State.withRecs (s : State) (r : Records) : State := { s with recs := r }

/-- The next state, as a step's outcome. -/
abbrev goOn (s : State) : Host.Outcome State Fault Refusal := .next s

/-! ### The ports -/

/-- The block takes a command word: the host's remaining moves are `rest`, and the bytes the host sent along stand on the
payload-in channel behind those already there (70_reset_and_hazards.md R189). -/
def State.accept (s : State) (payload : List Byte) (rest : List HostMove) : State :=
  { s with host := rest, din := s.din ++ payload }

/-- `rst`: the state of R181. A waiting command is abandoned without a response, and with it the bytes it has taken (R180);
bytes that no command is taking stay on the host's side of the channel (log entry 6). The host's remaining moves are
`rest`, and a new run begins (00_scope.md R9). -/
def State.applyReset (s : State) (rest : List HostMove) : State :=
  { State.reset with host := rest, din := if s.busy.isSome then [] else s.din }

end Sys2Proof.Machine
end

