-- ==== Sys2Proof/Machine/Operands.lean ====
section
/-! DEFINITION. The operand forms: a register number, a masked value and a payload. There is no other (30_encoding.md
R53 to R55): a width and a value are used as the unsigned numbers they are. -/

namespace Sys2Proof.Machine

/-- Operand `w` of SETREC and GETREC as a register number; 14..31 is none (30_encoding.md R53). -/
def regOperand (i : WField) : Option (Fin 14) := if h : i.toNat < 14 then some ⟨i.toNat, h⟩ else none

/-- `R[i]` (10_state.md R17). -/
def readRec (r : Records) (i : Fin 14) : Half := r[i.val]

/-- `R[i] <- v` (10_state.md R17). -/
def writeRec (r : Records) (i : Fin 14) (v : Half) : Records := r.set i.val v

/-- `v & mask(w)` (42_schema_codec.md R126). -/
def maskTo (w : Nat) (v : Half) : Half := v &&& BitVec.ofNat 16 (2 ^ w - 1)

/-- The first `n` bytes and the rest, or nothing if there are fewer than `n`. -/
def splitBytes : Nat → List Byte → List Byte → Option (List Byte × List Byte)
  | 0, taken, rest => some (taken.reverse, rest)
  | _ + 1, _, [] => none
  | n + 1, taken, b :: rest => splitBytes n (b :: taken) rest

/-- The payload operand: command `i` takes its `n` bytes off the payload-in channel and goes on with them as `k` says, or,
while the channel holds fewer, keeps waiting with nothing else changed (30_encoding.md R55, R60;
70_reset_and_hazards.md R189; log entry 5). -/
def withPayload (i : Instr) (n : Half) (s : State) (k : List Byte → State → Host.Outcome State Fault Refusal) :
    Host.Outcome State Fault Refusal :=
  match splitBytes n.toNat [] s.din with
  | some (bytes, rest) => k bytes { s with din := rest }
  | none => goOn { s with busy := some i }

end Sys2Proof.Machine
end

