-- ==== Sys2Proof/Machine/Flags.lean ====
section
/-! DEFINITION. The tests that decide a command's status. The block has no flags and no condition codes (10_state.md R20):
a test's outcome is reported in the response of that command and kept nowhere. All sums are sums of natural numbers
(40_bitbuffer_ops.md R86). -/

namespace Sys2Proof.Machine

/-- ADDFIELD's capacity test, `U + w <= CAP` (40_bitbuffer_ops.md R81). -/
def BitBuffer.hasRoom (b : BitBuffer) (w : Nat) : Bool := decide (b.used.toNat + w ≤ Config.cap)

/-- EXTRACT's underflow test, `C + w <= U` (40_bitbuffer_ops.md R82). -/
def BitBuffer.hasBits (b : BitBuffer) (w : Nat) : Bool := decide (b.cursor.toNat + w ≤ b.used.toNat)

/-- The length test of FROMSEPTETS, DECCFG and DECVER, `7n <= CAP` (41_septet_ops.md R104, 42_schema_codec.md R127, R129). -/
def septetsFit (n : Nat) : Bool := decide (7 * n ≤ Config.cap)

/-- The up-front test of ENCCFG and ENCVER, schema width at most `CAP` (42_schema_codec.md R126, R128, R135). -/
def schemaFits (bits : Nat) : Bool := decide (bits ≤ Config.cap)

end Sys2Proof.Machine
end

