-- ==== Sys2Proof/Machine/Buffer.lean ====
section
/-! DEFINITION. Layer 1, BitBuffer: CLEAR, ADDFIELD, EXTRACT (40_bitbuffer_ops.md). Each command's rule stands once as a
function of the buffer, which the layer-2 expansions call too, and once as the command. -/

namespace Sys2Proof.Machine

/-- CLEAR's effect: the fresh buffer, whatever stood there (40_bitbuffer_ops.md R80). -/
def BitBuffer.clear (_ : BitBuffer) : BitBuffer := { store := zeroStore, used := 0, cursor := 0 }

/-- ADDFIELD's rule: `w > 16` is illegal, `U + w > CAP` exceeds the capacity, otherwise the low `w` bits of `v` go to
`S[U +: w]`, most significant first, and `U` advances (40_bitbuffer_ops.md R81). -/
def BitBuffer.addField (b : BitBuffer) (w : Nat) (v : Half) : Except Status BitBuffer :=
  if w > Config.maxW then .error .errIllegal
  else if b.hasRoom w then
    .ok { store := bitWrite b.store b.used.toNat w v, used := BitVec.ofNat 8 (b.used.toNat + w), cursor := b.cursor }
  else .error .errCapacity

/-- EXTRACT's rule: `w > 16` is illegal, `C + w > U` gives 0 with nothing moved, otherwise the result is `S[C +: w]` and `C`
advances (40_bitbuffer_ops.md R82). -/
def BitBuffer.extract (b : BitBuffer) (w : Nat) : Except Status (Half × BitBuffer) :=
  if w > Config.maxW then .error .errIllegal
  else if b.hasBits w then
    .ok (BitVec.ofNat 16 (bitRead b.store b.cursor.toNat w), { b with cursor := BitVec.ofNat 8 (b.cursor.toNat + w) })
  else .ok (0, b)

/-- CLEAR (40_bitbuffer_ops.md R80). -/
def execClear (s : State) : Host.Outcome State Fault Refusal :=
  goOn ((s.withBuf s.buf.clear).respond .ok 0 [])

/-- ADDFIELD (40_bitbuffer_ops.md R81). -/
def execAddField (w : WField) (v : Half) (s : State) : Host.Outcome State Fault Refusal :=
  match s.buf.addField w.toNat v with
  | .ok b => goOn ((s.withBuf b).respond .ok 0 [])
  | .error e => goOn (s.fail e)

/-- EXTRACT (40_bitbuffer_ops.md R82). -/
def execExtract (w : WField) (s : State) : Host.Outcome State Fault Refusal :=
  match s.buf.extract w.toNat with
  | .ok (r, b) => goOn ((s.withBuf b).respond .ok r [])
  | .error e => goOn (s.fail e)

end Sys2Proof.Machine
end

