-- ==== Sys2Proof/Machine/Septet.lean ====
section
/-! DEFINITION. The septet transcoder: TOSEPTETS, FROMSEPTETS (41_septet_ops.md). -/

namespace Sys2Proof.Machine

/-- `ceil(u/7)`, the septets that carry `u` bits (41_septet_ops.md R100, R102). -/
def septetCount (u : Nat) : Nat := (u + 6) / 7

/-- Byte `k` of TOSEPTETS: bit 7 is 0 and bits 6..0 are `S[7k +: 7]`, a position at or beyond `U` giving 0
(41_septet_ops.md R100). -/
def BitBuffer.septet (b : BitBuffer) (k : Nat) : Byte :=
  BitVec.ofNat 8 (natOfBits (fun j => decide (7 * k + j < b.used.toNat) && bitAt b.store (7 * k + j)) 7)

/-- TOSEPTETS's payload out (41_septet_ops.md R100). -/
def BitBuffer.toSeptets (b : BitBuffer) : List Byte := (List.range (septetCount b.used.toNat)).map b.septet

/-- `BitWrite(7k, 7, b[k][6:0])` for each byte of a payload whose first byte has position `k` (41_septet_ops.md R104). -/
def loadSeptets (S : Store) (k : Nat) : List Byte → Store
  | [] => S
  | x :: xs => loadSeptets (bitWrite S (7 * k) 7 x) (k + 1) xs

/-- FROMSEPTETS's rule: `7n > CAP` exceeds the capacity, otherwise the septets replace the whole buffer, `U = 7n`, `C = 0`
(41_septet_ops.md R104). -/
def BitBuffer.fromSeptets (_ : BitBuffer) (bytes : List Byte) : Except Status BitBuffer :=
  if septetsFit bytes.length then
    .ok { store := loadSeptets zeroStore 0 bytes, used := BitVec.ofNat 8 (7 * bytes.length), cursor := 0 }
  else .error .errCapacity

/-- TOSEPTETS (41_septet_ops.md R100). -/
def execToSeptets (s : State) : Host.Outcome State Fault Refusal :=
  goOn (s.respond .ok 0 s.buf.toSeptets)

/-- FROMSEPTETS (41_septet_ops.md R104). -/
def execFromSeptets (n : Half) (s : State) : Host.Outcome State Fault Refusal :=
  withPayload (.fromSeptets n) n s fun bytes s =>
    match s.buf.fromSeptets bytes with
    | .ok b => goOn ((s.withBuf b).respond .ok 0 [])
    | .error e => goOn (s.fail e)

end Sys2Proof.Machine
end

