-- ==== Sys2Proof/Machine/Schema.lean ====
section
/-! DEFINITION. The two schemas and the walks over them (42_schema_codec.md sections 1 and 3): every bit moves through
ADDFIELD and EXTRACT. -/

namespace Sys2Proof.Machine

/-- The configuration schema: names and widths, in field order (42_schema_codec.md R124). -/
def configSchema : Vector (FieldName × Nat) 14 :=
  #v[(.keyMode, 2), (.pinMode, 2), (.ledMode, 2), (.gpioOutputMode, 2), (.output, 7), (.normalLED, 7), (.rgbLED, 7),
    (.ditPaddle, 7), (.dahPaddle, 7), (.straightKey, 7), (.wpm100, 16), (.channel, 7), (.note, 7), (.volume, 7)]

/-- The version schema: one field of 16 bits (42_schema_codec.md R125). -/
def versionSchema : FieldName × Nat := (.version, 16)

/-- `W[i]`, the width of field `i` (42_schema_codec.md R124). -/
def fieldWidth (i : Fin 14) : Nat := configSchema[i.val].2

/-- The register of a field of the configuration schema, its assembler alias (10_state.md R18). -/
def fieldRegister (f : FieldName) : Option (Fin 14) := (List.finRange 14).find? fun i => configSchema[i.val].1 == f

/-- `CFGBITS`, the total width of the configuration schema (00_scope.md R5; 90_conflicts.md C1: 87, not 92). -/
def cfgBits : Nat := ((List.finRange 14).map fieldWidth).sum

/-- `CFGSEPT`, the septets of an encoded configuration (00_scope.md R5). -/
def cfgSept : Nat := septetCount cfgBits

/-- `VERBITS`, the width of the version schema (00_scope.md R5). -/
def verBits : Nat := versionSchema.2

/-- `VERSEPT`, the septets of an encoded version (00_scope.md R5). -/
def verSept : Nat := septetCount verBits

/-- `for i in is: ADDFIELD(W[i], R[i] & mask(W[i]))` (42_schema_codec.md R126). -/
def packRecord (r : Records) : List (Fin 14) → BitBuffer → Except Status BitBuffer
  | [], b => .ok b
  | i :: is, b =>
    match b.addField (fieldWidth i) (maskTo (fieldWidth i) (readRec r i)) with
    | .ok b' => packRecord r is b'
    | .error e => .error e

/-- `for i in is: R[i] <- EXTRACT(W[i])` (42_schema_codec.md R127). -/
def unpackRecord : List (Fin 14) → BitBuffer → Records → Except Status (Records × BitBuffer)
  | [], b, r => .ok (r, b)
  | i :: is, b, r =>
    match b.extract (fieldWidth i) with
    | .ok (v, b') => unpackRecord is b' (writeRec r i v)
    | .error e => .error e

end Sys2Proof.Machine
end

