-- ==== Sys2Proof/Machine/Codec.lean ====
section
/-! DEFINITION. Layer 2, ConfigCodec: SETREC, GETREC, ENCCFG, DECCFG, ENCVER, DECVER (42_schema_codec.md). Each of the last
four is its expansion into layer-1 commands, the one test that can fail made before anything is touched (R120). -/

namespace Sys2Proof.Machine

/-- SETREC (42_schema_codec.md R121). -/
def execSetRec (i : WField) (v : Half) (s : State) : Host.Outcome State Fault Refusal :=
  match regOperand i with
  | some i => goOn ((s.withRecs (writeRec s.recs i v)).respond .ok 0 [])
  | none => goOn (s.fail .errIllegal)

/-- GETREC (42_schema_codec.md R122). -/
def execGetRec (i : WField) (s : State) : Host.Outcome State Fault Refusal :=
  match regOperand i with
  | some i => goOn (s.respond .ok (readRec s.recs i) [])
  | none => goOn (s.fail .errIllegal)

/-- ENCCFG: CLEAR; ADDFIELD of the 14 fields; TOSEPTETS (42_schema_codec.md R126). -/
def execEncCfg (s : State) : Host.Outcome State Fault Refusal :=
  if schemaFits cfgBits then
    match packRecord s.recs (List.finRange 14) s.buf.clear with
    | .ok b => goOn ((s.withBuf b).respond .ok 0 b.toSeptets)
    | .error e => goOn (s.fail e)
  else goOn (s.fail .errCapacity)

/-- DECCFG: the length test; CLEAR; FROMSEPTETS; EXTRACT of the 14 fields (42_schema_codec.md R127). -/
def execDecCfg (n : Half) (s : State) : Host.Outcome State Fault Refusal :=
  withPayload (.decCfg n) n s fun bytes s =>
    if septetsFit bytes.length then
      match s.buf.clear.fromSeptets bytes with
      | .ok b =>
        match unpackRecord (List.finRange 14) b s.recs with
        | .ok (r, b) => goOn (((s.withBuf b).withRecs r).respond .ok 0 [])
        | .error e => goOn (s.fail e)
      | .error e => goOn (s.fail e)
    else goOn (s.fail .errMalformed)

/-- ENCVER: CLEAR; ADDFIELD 16, v; TOSEPTETS (42_schema_codec.md R128). -/
def execEncVer (v : Half) (s : State) : Host.Outcome State Fault Refusal :=
  if schemaFits verBits then
    match s.buf.clear.addField verBits v with
    | .ok b => goOn ((s.withBuf b).respond .ok 0 b.toSeptets)
    | .error e => goOn (s.fail e)
  else goOn (s.fail .errCapacity)

/-- DECVER: the length test; CLEAR; FROMSEPTETS; EXTRACT 16 (42_schema_codec.md R129). -/
def execDecVer (n : Half) (s : State) : Host.Outcome State Fault Refusal :=
  withPayload (.decVer n) n s fun bytes s =>
    if septetsFit bytes.length then
      match s.buf.clear.fromSeptets bytes with
      | .ok b =>
        match b.extract verBits with
        | .ok (r, b) => goOn ((s.withBuf b).respond .ok r [])
        | .error e => goOn (s.fail e)
      | .error e => goOn (s.fail e)
    else goOn (s.fail .errMalformed)

end Sys2Proof.Machine
end

