-- ==== Sys2Proof/Machine/Dispatch.lean ====
section
/-! DEFINITION. One arm per command, each one call of its meaning. -/

namespace Sys2Proof.Machine

/-- The meaning of a command (30_encoding.md R60, step 3). -/
def exec (i : Instr) (s : State) : Host.Outcome State Fault Refusal :=
  match i with
  | .clear => Sys2Proof.Machine.execClear s
  | .addField w v => Sys2Proof.Machine.execAddField w v s
  | .extract w => Sys2Proof.Machine.execExtract w s
  | .toSeptets => Sys2Proof.Machine.execToSeptets s
  | .fromSeptets n => Sys2Proof.Machine.execFromSeptets n s
  | .setRec r v => Sys2Proof.Machine.execSetRec r v s
  | .getRec r => Sys2Proof.Machine.execGetRec r s
  | .encCfg => Sys2Proof.Machine.execEncCfg s
  | .decCfg n => Sys2Proof.Machine.execDecCfg n s
  | .encVer v => Sys2Proof.Machine.execEncVer v s
  | .decVer n => Sys2Proof.Machine.execDecVer n s

end Sys2Proof.Machine
end

