-- ==== Sys2Proof/Machine/Step.lean ====
section
/-! DEFINITION. One step: the block's reaction to the host's next move (00_scope.md R6, R9). There is no program counter and
no fetch (10_state.md R19): the next command is the one the host issues next. -/

namespace Sys2Proof.Machine

/-- A command word is taken and performed: an illegal word fails with `ERR_ILLEGAL` and takes no payload, a legal one is
performed (30_encoding.md R60). -/
def stepWord (word : CmdWord) (s : State) : Host.Outcome State Fault Refusal :=
  match decode word with
  | .ok i => exec i s
  | .error _ => .next (s.fail .errIllegal)

/-- One step. `rst` acts at any time (70_reset_and_hazards.md R180). A waiting command goes on waiting, or completes, before
any other is taken (R189, R190). With no move of the host nothing happens (60_exceptions.md R168). -/
def step (s : State) : Host.Outcome State Fault Refusal :=
  match s.host, s.busy with
  | .rst :: rest, _ => .next (s.applyReset rest)
  | _, some i => exec i s
  | [], none => .next s
  | .command word payload :: rest, none => stepWord word (s.accept payload rest)

/-- The payload of zeros that a word needs: as many bytes as its command takes (30_encoding.md R56). -/
def zeroPayload (word : CmdWord) : List Byte :=
  match decode word with
  | .ok i => List.replicate (payloadCount i) 0
  | .error _ => []

/-- The state whose host issues, as its next move, the word that spec/opcode_table.json's numbering gives, with a payload of
zeros of the length it needs; no earlier command is still waiting. -/
def State.withFetchWord (s : State) (nbits w : Nat) : State :=
  { s with busy := none, host := .command (tableWord nbits w) (zeroPayload (tableWord nbits w)) :: s.host }

end Sys2Proof.Machine
end

