-- ==== Sys2Proof/Machine/Wpm.lean ====
section
/-! DEFINITION. The host's side of `wpm`: the two conversions around the block, which sees only the integer `wpm100` in
`R[10]` (42_schema_codec.md section 7). -/

namespace Sys2Proof.Machine

/-- The host's rounding function, the spec's open parameter `round100`: of it only this one property is known
(42_schema_codec.md R139, 92_eei_decisions.md D14; log entry 7). -/
structure Rounding where
  round100 : ℝ → ℕ
  near : ∀ x : ℝ, 0 ≤ x → |(round100 x : ℝ) - 100 * x| ≤ 1 / 2

/-- Before ENCCFG the host sets `R[10]` to `round100(wpm) mod 2^16`; a negative `wpm` is refused, so that there is no value to
set (42_schema_codec.md R139, 93_implementation_defined.md I10). It compares real numbers, so it is not code that runs; the block
never calls it. -/
noncomputable def wpmToRecord (ρ : Rounding) (wpm : ℝ) : Option Half :=
  if 0 ≤ wpm then some (BitVec.ofNat 16 (ρ.round100 wpm)) else none

/-- After DECCFG the host recovers `wpm` as `R[10] / 100.0`, an exact quotient with at most two decimals
(42_schema_codec.md R140). -/
def recordToWpm (r : Half) : ℚ := (r.toNat : ℚ) / 100

end Sys2Proof.Machine
end

