-- ==== Sys2Proof/Safety.lean ====
section
/-! DEFINITION. The terms in which claims are made: the invariants of a safe run, how a command ends, sequences of commands,
and the tables of the spec written out again so that a claim does not lean on the model's own. -/

namespace Sys2Proof.Machine

/-! ### Invariants -/

/-- The canonical form of the store: every bit at or beyond `U` is 0 (10_state.md R14 part 2). With it, buffers with the same
written part are the same data. -/
abbrev Memory.wf (b : BitBuffer) : Prop := ∀ i < 128, b.used.toNat ≤ i → bitAt b.store i = false

/-- The invariants of the buffer: `0 <= C <= U <= CAP`, and zeros beyond `U` (10_state.md R14). -/
abbrev BitBuffer.Inv (b : BitBuffer) : Prop :=
  b.cursor.toNat ≤ b.used.toNat ∧ b.used.toNat ≤ 128 ∧ Memory.wf b

/-- What every response looks like: at most 19 septets, each in `0x00..0x7F`; result 0 and no payload when the status is not
`OK` (30_encoding.md R58, 41_septet_ops.md R101, R102). -/
abbrev Response.WellFormed (r : Response) : Prop :=
  r.payload.length ≤ 19 ∧ (∀ x ∈ r.payload, x.toNat < 128) ∧ (r.status ≠ .ok → r.result = 0 ∧ r.payload = [])

/-- A waiting command is a legal one that still lacks bytes (70_reset_and_hazards.md R189). -/
abbrev State.WaitsForBytes (s : State) : Prop := ∀ i ∈ s.busy, i.wf = true ∧ s.din.length < payloadCount i

/-- The invariant of the whole machine. -/
abbrev State.Inv (s : State) : Prop :=
  s.buf.Inv ∧ (∀ r ∈ s.responses, r.WellFormed) ∧ s.WaitsForBytes

/-! ### How a command ends -/

/-- The response of a command that succeeds with nothing to return. -/
def okEmpty : Response := { status := .ok, result := 0, payload := [] }

/-- The response of a command that fails (60_exceptions.md R158). -/
def failed (st : Status) : Response := { status := st, result := 0, payload := [] }

/-- From `s` to `t` exactly the response `r` was returned: nothing waits any more, and the host's moves are as they were. -/
def Replied (s t : State) (r : Response) : Prop :=
  t.responses = s.responses ++ [r] ∧ t.busy = none ∧ t.host = s.host

/-- From `s` to `t` the buffer, the record registers and the payload-in channel are as they were. -/
def SameCore (s t : State) : Prop := t.buf = s.buf ∧ t.recs = s.recs ∧ t.din = s.din

/-! ### Sequences of commands -/

/-- The commands one after another, each after the response to the one before (20_memory.md R41). -/
def execAll : List Instr → State → Host.Outcome State Fault Refusal
  | [], s => .next s
  | i :: is, s =>
    match exec i s with
    | .next t => execAll is t
    | .fault f => .fault f
    | .refused r => .refused r

/-- ADDFIELD for each pair of a width and a value. -/
def addFields (fs : List (WField × Half)) : List Instr := fs.map fun f => .addField f.1 f.2

/-- EXTRACT for each width. -/
def extracts (ws : List WField) : List Instr := ws.map .extract

/-- The sum of some widths. -/
def widthSum (ws : List WField) : Nat := (ws.map BitVec.toNat).sum

/-- The layer-2 commands (42_schema_codec.md). -/
def isLayer2 : Instr → Bool
  | .setRec _ _ | .getRec _ | .encCfg | .decCfg _ | .encVer _ | .decVer _ => true
  | .clear | .addField _ _ | .extract _ | .toSeptets | .fromSeptets _ => false

/-- A block of a conforming sequence whose payloads carry `packed` bits (10_state.md R16). -/
inductive ConformingBlock (packed : Nat) : List Instr → Prop
  /-- pack: CLEAR, ADDFIELDs, TOSEPTETS. -/
  | pack (fs : List (WField × Half)) : ConformingBlock packed (.clear :: (addFields fs ++ [.toSeptets]))
  /-- unpack: FROMSEPTETS, then EXTRACTs whose widths sum to at most what was packed. -/
  | unpack (n : Half) (ws : List WField) (h : widthSum ws ≤ packed) :
      ConformingBlock packed (.fromSeptets n :: extracts ws)
  /-- unpack with the optional CLEAR before it. -/
  | unpackCleared (n : Half) (ws : List WField) (h : widthSum ws ≤ packed) :
      ConformingBlock packed (.clear :: .fromSeptets n :: extracts ws)
  /-- any layer-2 command by itself. -/
  | layer2 (i : Instr) (h : isLayer2 i = true) : ConformingBlock packed [i]

/-! ### Tables of the spec -/

/-- Mask and match of each row, in the order of 30_encoding.md R52. -/
def opcodeTable : List (CmdWord × CmdWord) :=
  [(0xFFFFFFFF, 0x10000000), (0xFFE00000, 0x20000000), (0xFFE0FFFF, 0x30000000), (0xFFFFFFFF, 0x40000000),
   (0xFFFF0000, 0x50000000), (0xFFE00000, 0x60000000), (0xFFE0FFFF, 0x70000000), (0xFFFFFFFF, 0x80000000),
   (0xFFFF0000, 0x90000000), (0xFFFF0000, 0xA0000000), (0xFFFF0000, 0xB0000000)]

/-- The range limit that a mask cannot express: `w <= 16` for opcodes 2 and 3, `w <= 13` for 6 and 7 (30_encoding.md R53). -/
def rangeLimit (word : CmdWord) : Prop :=
  let op := word.toNat / 2 ^ 28
  let w := word.toNat / 2 ^ 16 % 2 ^ 5
  ((op = 2 ∨ op = 3) → w ≤ 16) ∧ ((op = 6 ∨ op = 7) → w ≤ 13)

/-- The six cases in which a command word is illegal, read off the word as a number (30_encoding.md R57). -/
def IllegalWord (word : CmdWord) : Prop :=
  let op := word.toNat / 2 ^ 28
  let z := word.toNat / 2 ^ 21 % 2 ^ 7
  let w := word.toNat / 2 ^ 16 % 2 ^ 5
  let v := word.toNat % 2 ^ 16
  (op = 0 ∨ 0xC ≤ op) ∨ z ≠ 0 ∨
  (w ≠ 0 ∧ op ∈ [0x1, 0x4, 0x5, 0x8, 0x9, 0xA, 0xB]) ∨
  (v ≠ 0 ∧ op ∈ [0x1, 0x3, 0x4, 0x7, 0x8]) ∨
  ((op = 0x2 ∨ op = 0x3) ∧ 16 < w) ∨
  ((op = 0x6 ∨ op = 0x7) ∧ 13 < w)

/-- The width of each field of the configuration payload (30_encoding.md R66). -/
def specWidth (i : Fin 14) : Nat := #v[2, 2, 2, 2, 7, 7, 7, 7, 7, 7, 16, 7, 7, 7][i]

/-- The first store bit of each field of the configuration payload (30_encoding.md R66). -/
def specOffset (i : Fin 14) : Nat := #v[0, 2, 4, 6, 8, 15, 22, 29, 36, 43, 50, 66, 73, 80][i]

/-- Bit `i` of a septet stream: bit `6 - i mod 7` of byte `i div 7` (20_memory.md R33, 41_septet_ops.md R104). -/
def streamBit (bytes : List Byte) (i : Nat) : Bool := (bytes.getD (i / 7) 0).getLsbD (6 - i % 7)

/-- The `w` bits of a septet stream from bit `a` on, as a number, the first most significant: what EXTRACT `w` reads there after
that stream is loaded (41_septet_ops.md R104, 40_bitbuffer_ops.md R82). -/
def streamField (bytes : List Byte) (a w : Nat) : Nat := natOfBits (fun j => streamBit bytes (a + j)) w

/-- The fields of the configuration schema as operands of ADDFIELD (42_schema_codec.md R124, R126). -/
def specFields (r : Records) : List (WField × Half) :=
  (List.finRange 14).map fun i => (BitVec.ofNat 5 (specWidth i), r[i])

/-- The widths of the configuration schema as operands of EXTRACT (42_schema_codec.md R124, R127). -/
def specWidths : List WField := (List.finRange 14).map fun i => BitVec.ofNat 5 (specWidth i)

/-- Bits `hi` down to `lo` of a register, as a number (30_encoding.md R66's `f[a:b]`). -/
def slice (v : Half) (hi lo : Nat) : Nat := v.toNat / 2 ^ lo % 2 ^ (hi + 1 - lo)

/-- The 13 bytes of the configuration payload, septet by septet (the second table of 30_encoding.md R66). -/
def specConfigPayload (r : Records) : List Nat :=
  [slice r[0] 1 0 * 32 + slice r[1] 1 0 * 8 + slice r[2] 1 0 * 2 + slice r[3] 1 1,
   slice r[3] 0 0 * 64 + slice r[4] 6 1,
   slice r[4] 0 0 * 64 + slice r[5] 6 1,
   slice r[5] 0 0 * 64 + slice r[6] 6 1,
   slice r[6] 0 0 * 64 + slice r[7] 6 1,
   slice r[7] 0 0 * 64 + slice r[8] 6 1,
   slice r[8] 0 0 * 64 + slice r[9] 6 1,
   slice r[9] 0 0 * 64 + slice r[10] 15 10,
   slice r[10] 9 3,
   slice r[10] 2 0 * 16 + slice r[11] 6 3,
   slice r[11] 2 0 * 16 + slice r[12] 6 3,
   slice r[12] 2 0 * 16 + slice r[13] 6 3,
   slice r[13] 2 0 * 16]

end Sys2Proof.Machine
end

