-- ==== Sys2Proof/Certificates/Slice0/Obligations.lean ====
section
/-! DEFINITION. The statements for the provers. Each docstring names the rule of spec/ it formalises. Where a rule carries the
spec's own mark `[decision: D<n>]` or `[derived]`, the docstring says so. -/

open Sys2Proof Sys2Proof.Machine

/-! ### Reset, steps, the host -/

/-- R181: the state after reset, which is the state after CLEAR with all record registers zero. (The zero store and the zero registers
are the spec's decisions D12 and D13.) -/
def Obligations.ResetLeavesFreshBlock : Prop :=
  (∀ i, bitAt State.reset.buf.store i = false) ∧ State.reset.buf.used = 0 ∧ State.reset.buf.cursor = 0 ∧
    (∀ i : Fin 14, State.reset.recs[i] = 0) ∧
    State.reset.usedOut = 0 ∧ State.reset.cursorOut = 0 ∧ State.reset.capacityOut = 128 ∧
    ∀ s : State, (∀ i : Fin 14, s.recs[i] = 0) →
      ∃ t, exec .clear s = .next t ∧ t.buf = State.reset.buf ∧ t.recs = State.reset.recs

/-- R14 at reset, with the model's own clauses about responses and waiting. -/
def Obligations.ResetMeetsInvariant : Prop := State.reset.Inv

/-- Derived from R14 (spec's [derived] part 2), R58, R101, R102 and R189: every step keeps the machine's invariant. -/
def Obligations.StepKeepsInvariant : Prop :=
  ∀ s t : State, s.Inv → step s = .next t → t.Inv

/-- R60: a legal word that the host issues is performed. Around `exec` the step takes the host's move and puts the bytes sent
along behind those already on the payload-in channel (log entry 6). -/
def Obligations.StepRunsIssuedCommand : Prop :=
  ∀ (s : State) (word : CmdWord) (payload : List Byte) (rest : List HostMove) (i : Instr),
    s.busy = none → s.host = .command word payload :: rest → decode word = .ok i →
    step s = exec i { s with host := rest, din := s.din ++ payload }

/-- R57, R154 (decision D6): an illegal word fails with `ERR_ILLEGAL`, changes no state and takes no payload (R56). -/
def Obligations.IllegalWordFailsWithoutEffect : Prop :=
  ∀ (s : State) (word : CmdWord) (payload : List Byte) (rest : List HostMove),
    s.busy = none → s.host = .command word payload :: rest → IllegalWord word →
    ∃ t, step s = .next t ∧ t.buf = s.buf ∧ t.recs = s.recs ∧ t.din = s.din ++ payload ∧ t.host = rest ∧
      t.busy = none ∧ t.responses = s.responses ++ [failed .errIllegal]

/-- The model's choice (log entries 3 and 6) on R180, R181: the move `rst` leaves the reset state of the block at any time and
returns no response. Bytes that a waiting command had taken are gone, other bytes stay on the host's side. -/
def Obligations.ResetMoveRestoresResetState : Prop :=
  ∀ (s : State) (rest : List HostMove), s.host = .rst :: rest →
    ∃ t, step s = .next t ∧ t.buf = State.reset.buf ∧ t.recs = State.reset.recs ∧ t.busy = none ∧ t.responses = [] ∧
      t.host = rest ∧ (s.busy = none → t.din = s.din) ∧ (∀ i, s.busy = some i → t.din = [])

/-- The model's reading (log entry 13) of R156 and R168: with no move of the host and no waiting command, nothing changes. -/
def Obligations.IdleStepChangesNothing : Prop :=
  ∀ s : State, s.host = [] → s.busy = none → step s = .next s

/-- The model's reading (log entry 5) of R189: a command whose payload is short waits; nothing but `rst` and more bytes ends the
wait. -/
def Obligations.ShortPayloadWaits : Prop :=
  (∀ (i : Instr) (s : State), s.din.length < payloadCount i → exec i s = .next { s with busy := some i }) ∧
    (∀ (i : Instr) (s : State), s.busy = some i → s.din.length < payloadCount i →
      (∀ rest, s.host ≠ .rst :: rest) → step s = .next s)

/-- Derived from R150, R158 and R168 (log entry 9): no step faults and none is refused. -/
def Obligations.EveryStepGoesOn : Prop := ∀ s : State, ∃ t, step s = .next t

/-- R182 [derived]: the first command after reset may be any command; four of them and their responses. -/
def Obligations.FirstCommandAfterReset : Prop :=
  (∃ t, exec .toSeptets State.reset = .next t ∧ t.responses = [okEmpty]) ∧
    (∀ w : WField, w.toNat ≤ 16 → ∃ t, exec (.extract w) State.reset = .next t ∧ t.responses = [okEmpty]) ∧
    (∃ t, exec .encCfg State.reset = .next t ∧ t.responses = [⟨.ok, 0, List.replicate 13 0⟩]) ∧
    (∀ i : WField, i.toNat ≤ 13 → ∃ t, exec (.getRec i) State.reset = .next t ∧ t.responses = [okEmpty])

/-! ### Encoding -/

/-- Derived from R51, R52, R53 and R61: decoding the word of a legal command gives the command back. -/
def Obligations.DecodeOfEncodeIsIdentity : Prop :=
  ∀ i : Instr, i.wf = true → decode (encode i) = .ok i

/-- Derived from R51 and R52: every legal word is the word of the command it decodes to, and that command is legal. -/
def Obligations.EncodeOfDecodeIsIdentity : Prop :=
  ∀ (word : CmdWord) (i : Instr), decode word = .ok i → encode i = word ∧ i.wf = true

/-- R57 (decision D6): the decoder refuses exactly the words that one of the six cases makes illegal. -/
def Obligations.DecoderRefusesExactlyIllegalWords : Prop :=
  ∀ word : CmdWord, (∃ e, decode word = .error e) ↔ IllegalWord word

/-- Derived from R52, R53: the decoder accepts a word exactly when it selects a row by mask and match and is within the row's
range limit, and no word selects two rows. -/
def Obligations.LegalWordsSelectOneTableRow : Prop :=
  (∀ word : CmdWord,
      (∃ i, decode word = .ok i) ↔ (∃ row ∈ opcodeTable, word &&& row.1 = row.2) ∧ rangeLimit word) ∧
    (∀ word : CmdWord, ∀ a ∈ opcodeTable, ∀ b ∈ opcodeTable, word &&& a.1 = a.2 → word &&& b.1 = b.2 → a = b)

/-- Derived from R61: the word of each command, as the assembler's table computes it. -/
def Obligations.EncodingsFollowAssemblerTable : Prop :=
  (encode .clear).toNat = 0x10000000 ∧
    (∀ (w : WField) (v : Half), (encode (.addField w v)).toNat = 0x20000000 + w.toNat * 2 ^ 16 + v.toNat) ∧
    (∀ w : WField, (encode (.extract w)).toNat = 0x30000000 + w.toNat * 2 ^ 16) ∧
    (encode .toSeptets).toNat = 0x40000000 ∧
    (∀ n : Half, (encode (.fromSeptets n)).toNat = 0x50000000 + n.toNat) ∧
    (∀ (i : WField) (v : Half), (encode (.setRec i v)).toNat = 0x60000000 + i.toNat * 2 ^ 16 + v.toNat) ∧
    (∀ i : WField, (encode (.getRec i)).toNat = 0x70000000 + i.toNat * 2 ^ 16) ∧
    (encode .encCfg).toNat = 0x80000000 ∧
    (∀ n : Half, (encode (.decCfg n)).toNat = 0x90000000 + n.toNat) ∧
    (∀ v : Half, (encode (.encVer v)).toNat = 0xA0000000 + v.toNat) ∧
    (∀ n : Half, (encode (.decVer n)).toNat = 0xB0000000 + n.toNat)

/-- R56 (decision D19): the payload length is `v` when `op` is 0x5, 0x9 or 0xB and 0 otherwise; an illegal word takes no payload,
whatever its `v`. -/
def Obligations.PayloadCountIsReadOffTheWord : Prop :=
  (∀ (word : CmdWord) (i : Instr), decode word = .ok i →
    payloadCount i =
      if word.toNat / 2 ^ 28 = 0x5 ∨ word.toNat / 2 ^ 28 = 0x9 ∨ word.toNat / 2 ^ 28 = 0xB
      then word.toNat % 2 ^ 16 else 0) ∧
  (∀ (s : State) (word : CmdWord) (payload : List Byte) (rest : List HostMove),
    s.busy = none → s.host = .command word payload :: rest → IllegalWord word →
    ∃ t, step s = .next t ∧ t.busy = none ∧ t.din = s.din ++ payload)

/-- Derived from R52 and vector V52: a word of each row, written out from the table, and what it means. -/
def Obligations.SpecWordsDecode : Prop :=
  decodeTableWord 32 0x10000000 = some .clear ∧ decodeTableWord 32 0x20070005 = some (.addField 7 5) ∧
    decodeTableWord 32 0x30100000 = some (.extract 16) ∧ decodeTableWord 32 0x40000000 = some .toSeptets ∧
    decodeTableWord 32 0x5000000D = some (.fromSeptets 13) ∧ decodeTableWord 32 0x600A07D0 = some (.setRec 10 2000) ∧
    decodeTableWord 32 0x700A0000 = some (.getRec 10) ∧ decodeTableWord 32 0x80000000 = some .encCfg ∧
    decodeTableWord 32 0x9000000D = some (.decCfg 13) ∧ decodeTableWord 32 0xA0000002 = some (.encVer 2) ∧
    decodeTableWord 32 0xB0000003 = some (.decVer 3)

/-! ### Layer 1 -/

/-- R80: CLEAR makes the buffer fresh, always answers `OK` and changes nothing else; besides FROMSEPTETS it is the only layer-1 command
that lowers `U` or `C`. (Zeroing the store is the spec's decision D12.) -/
def Obligations.ClearMakesBufferFresh : Prop :=
  (∀ s : State, ∃ t, exec .clear s = .next t ∧ (∀ i, bitAt t.buf.store i = false) ∧ t.buf.used = 0 ∧
    t.buf.cursor = 0 ∧ t.buf.number = 0 ∧ t.recs = s.recs ∧ t.din = s.din ∧ Replied s t okEmpty) ∧
  (∀ (i : Instr) (s t : State), exec i s = .next t → isLayer2 i = false →
    (t.buf.used.toNat < s.buf.used.toNat ∨ t.buf.cursor.toNat < s.buf.cursor.toNat) →
    i = .clear ∨ ∃ n, i = .fromSeptets n)

/-- R81, in the bit view and in the number view: ADDFIELD appends the low `w` bits, most significant first, at `S[U]`, and advances `U`;
every other bit, the cursor, the record registers and the channel are as before. Without room it fails with `ERR_CAPACITY`, with a
width above 16 with `ERR_ILLEGAL` (decision D7), and then nothing changes. -/
def Obligations.AddFieldAppendsLowBits : Prop :=
  (∀ (s : State) (w : WField) (v : Half), w.toNat ≤ 16 → s.buf.used.toNat + w.toNat ≤ 128 →
    ∃ t, exec (.addField w v) s = .next t ∧ t.buf.used.toNat = s.buf.used.toNat + w.toNat ∧
      t.buf.cursor = s.buf.cursor ∧
      (∀ j < w.toNat, bitAt t.buf.store (s.buf.used.toNat + j) = v.getLsbD (w.toNat - 1 - j)) ∧
      (∀ a, (a < s.buf.used.toNat ∨ s.buf.used.toNat + w.toNat ≤ a) → bitAt t.buf.store a = bitAt s.buf.store a) ∧
      t.buf.number = s.buf.number * 2 ^ w.toNat + v.toNat % 2 ^ w.toNat ∧
      t.recs = s.recs ∧ t.din = s.din ∧ Replied s t okEmpty) ∧
  (∀ (s : State) (w : WField) (v : Half), w.toNat ≤ 16 → 128 < s.buf.used.toNat + w.toNat →
    ∃ t, exec (.addField w v) s = .next t ∧ SameCore s t ∧ Replied s t (failed .errCapacity)) ∧
  (∀ (s : State) (w : WField) (v : Half), 16 < w.toNat →
    ∃ t, exec (.addField w v) s = .next t ∧ SameCore s t ∧ Replied s t (failed .errIllegal))

/-- R53 (decisions D7, D13), R157 (decision D25): a width above 16 or a register above 13 is illegal, whatever the state, so that
`ADDFIELD 17, v` in a full buffer reports `ERR_ILLEGAL`; and the decoder refuses the words. -/
def Obligations.OutOfRangeOperandsAreIllegal : Prop :=
  ∀ (s : State) (w : WField) (v : Half),
    (16 < w.toNat → ∀ i ∈ [Instr.addField w v, .extract w],
      (∃ e, decode (encode i) = .error e) ∧ ∃ t, exec i s = .next t ∧ SameCore s t ∧ Replied s t (failed .errIllegal)) ∧
    (13 < w.toNat → ∀ i ∈ [Instr.setRec w v, .getRec w],
      (∃ e, decode (encode i) = .error e) ∧ ∃ t, exec i s = .next t ∧ SameCore s t ∧ Replied s t (failed .errIllegal))

/-- R82, in the bit view and in the number view: when `w` bits remain, EXTRACT returns `S[C +: w]`, most significant first, with no bit
at or above `w` set, and advances `C`; the store, `U`, the record registers and the channel are as before. An underflow is no failure:
the result is 0 and nothing changes (that the cursor stays is decision D9). A width above 16 is illegal (decision D7). -/
def Obligations.ExtractReturnsNextBits : Prop :=
  (∀ (s : State) (w : WField), w.toNat ≤ 16 → s.buf.cursor.toNat + w.toNat ≤ s.buf.used.toNat →
    ∃ t r, exec (.extract w) s = .next t ∧
      (∀ j < w.toNat, r.getLsbD (w.toNat - 1 - j) = bitAt s.buf.store (s.buf.cursor.toNat + j)) ∧
      (∀ k, w.toNat ≤ k → r.getLsbD k = false) ∧
      r.toNat = s.buf.number / 2 ^ (s.buf.used.toNat - s.buf.cursor.toNat - w.toNat) % 2 ^ w.toNat ∧
      t.buf.cursor.toNat = s.buf.cursor.toNat + w.toNat ∧ t.buf.store = s.buf.store ∧ t.buf.used = s.buf.used ∧
      t.recs = s.recs ∧ t.din = s.din ∧ Replied s t ⟨.ok, r, []⟩) ∧
  (∀ (s : State) (w : WField), w.toNat ≤ 16 → s.buf.used.toNat < s.buf.cursor.toNat + w.toNat →
    ∃ t, exec (.extract w) s = .next t ∧ SameCore s t ∧ Replied s t okEmpty) ∧
  (∀ (s : State) (w : WField), 16 < w.toNat →
    ∃ t, exec (.extract w) s = .next t ∧ SameCore s t ∧ Replied s t (failed .errIllegal))

/-- R100, in the bit view and in the number view: TOSEPTETS returns the written part cut into groups of 7, zero-padded, and changes
nothing. -/
def Obligations.ToSeptetsReturnsWrittenBits : Prop :=
  ∀ s : State, ∃ t out, exec .toSeptets s = .next t ∧ out.length = (s.buf.used.toNat + 6) / 7 ∧
    (∀ k (h : k < out.length), out[k].getLsbD 7 = false ∧
      (∀ j < 7, out[k].getLsbD (6 - j) = (decide (7 * k + j < s.buf.used.toNat) && bitAt s.buf.store (7 * k + j))) ∧
      out[k].toNat =
        s.buf.number * 2 ^ (7 * out.length - s.buf.used.toNat) / 2 ^ (7 * (out.length - 1 - k)) % 128) ∧
    SameCore s t ∧ Replied s t ⟨.ok, 0, out⟩

/-- R104, in the bit view and in the number view: FROMSEPTETS with at most 18 bytes replaces the whole buffer by the low 7 bits of each
byte, whatever the buffer held (decision D11), and leaves the record registers and the bytes behind its payload. With 19 bytes or more
it fails with `ERR_CAPACITY`: the bytes are taken (R189), nothing else changes. -/
def Obligations.FromSeptetsReplacesBuffer : Prop :=
  ∀ (s : State) (n : Half) (payload rest : List Byte), s.din = payload ++ rest → payload.length = n.toNat →
    (7 * n.toNat ≤ 128 →
      ∃ t, exec (.fromSeptets n) s = .next t ∧ t.buf.used.toNat = 7 * n.toNat ∧ t.buf.cursor = 0 ∧
        (∀ k (h : k < payload.length), ∀ j < 7, bitAt t.buf.store (7 * k + j) = payload[k].getLsbD (6 - j)) ∧
        (∀ i, 7 * n.toNat ≤ i → bitAt t.buf.store i = false) ∧
        t.buf.number = payload.foldl (fun N x => N * 128 + x.toNat % 128) 0 ∧
        t.recs = s.recs ∧ t.din = rest ∧ Replied s t okEmpty) ∧
    (128 < 7 * n.toNat →
      ∃ t, exec (.fromSeptets n) s = .next t ∧ t.buf = s.buf ∧ t.recs = s.recs ∧ t.din = rest ∧
        Replied s t (failed .errCapacity))

/-- R15: under R14 the number view carries the same information as the store, and `N < 2^U`. -/
def Obligations.NumberViewDeterminesBuffer : Prop :=
  ∀ b c : BitBuffer, b.Inv → c.Inv →
    b.number < 2 ^ b.used.toNat ∧ (b.number = c.number → b.used = c.used → b.cursor = c.cursor → b = c)

/-- R11 (decision D3): byte `k` of the byte view holds the store bits `8k` to `8k+7`, the first of them as its bit 7. -/
def Obligations.ByteViewOfStore : Prop :=
  ∀ (S : Store) (k j : Nat), k < 16 → j < 8 → (storeByte S k).getLsbD (7 - j) = bitAt S (8 * k + j)

/-- Derived from R81 and R82 (the order law, the spec's [derived] R83): fields come back in the order they were added, each cut to
its width. -/
def Obligations.FieldsComeBackInOrder : Prop :=
  ∀ (s : State) (fs : List (WField × Half)), (∀ f ∈ fs, f.1.toNat ≤ 16) → widthSum (fs.map Prod.fst) ≤ 128 →
    ∃ t, execAll (.clear :: (addFields fs ++ extracts (fs.map Prod.fst))) s = .next t ∧
      t.responses = s.responses ++ List.replicate (fs.length + 1) okEmpty ++
        fs.map (fun f => ⟨.ok, BitVec.ofNat 16 (f.2.toNat % 2 ^ f.1.toNat), []⟩) ∧
      t.buf.used.toNat = widthSum (fs.map Prod.fst) ∧ t.buf.cursor.toNat = widthSum (fs.map Prod.fst) ∧
      t.recs = s.recs ∧ t.din = s.din

/-- Derived from R82 (the re-cut law, the spec's [derived] R84): the results of EXTRACTs, laid end to end, are the bits from the
cursor on. -/
def Obligations.ExtractsRecutTheStore : Prop :=
  ∀ (s : State) (ws : List WField), (∀ w ∈ ws, w.toNat ≤ 16) →
    s.buf.cursor.toNat + widthSum ws ≤ s.buf.used.toNat →
    ∃ (t : State) (vals : List Half), execAll (extracts ws) s = .next t ∧ vals.length = ws.length ∧
      t.responses = s.responses ++ vals.map (fun r => ⟨.ok, r, []⟩) ∧
      (∀ p ∈ vals.zip ws, p.1.toNat < 2 ^ p.2.toNat) ∧
      (vals.zip ws).foldl (fun N p => N * 2 ^ p.2.toNat + p.1.toNat) 0 =
        bitRead s.buf.store s.buf.cursor.toNat (widthSum ws) ∧
      t.buf.cursor.toNat = s.buf.cursor.toNat + widthSum ws ∧ t.buf.store = s.buf.store ∧ t.buf.used = s.buf.used

/-- Derived from R81 (the capacity law, the spec's [derived] R85): from a fresh buffer the ADDFIELDs all succeed exactly when their
widths sum to at most 128. -/
def Obligations.AddFieldsSucceedUpToCapacity : Prop :=
  ∀ (s : State) (fs : List (WField × Half)), (∀ f ∈ fs, f.1.toNat ≤ 16) →
    ∃ t rs, execAll (.clear :: addFields fs) s = .next t ∧ t.responses = s.responses ++ rs ∧
      ((∀ r ∈ rs, r.status = .ok) ↔ widthSum (fs.map Prod.fst) ≤ 128)

/-- Derived from R104 (the high-bit law, the spec's [derived] R106): bit 7 of the payload bytes makes no difference. -/
def Obligations.HighBitsOfPayloadAreIgnored : Prop :=
  ∀ (s : State) (n : Half) (xs ys rest : List Byte), xs.length = n.toNat →
    xs.map (· &&& 0x7F#8) = ys.map (· &&& 0x7F#8) →
    exec (.fromSeptets n) { s with din := xs ++ rest } = exec (.fromSeptets n) { s with din := ys ++ rest } ∧
    exec (.decCfg n) { s with din := xs ++ rest } = exec (.decCfg n) { s with din := ys ++ rest } ∧
    exec (.decVer n) { s with din := xs ++ rest } = exec (.decVer n) { s with din := ys ++ rest }

/-- Derived from R100 and R104 (the spec's [derived] R108): a buffer of at most 126 bits goes through the septet stream and comes back
with the same written bits, followed by zeros up to a multiple of 7 (R107), on any receiver. -/
def Obligations.StoreSurvivesSeptetStream : Prop :=
  ∀ s : State, s.buf.used.toNat ≤ 126 →
    ∃ t out, exec .toSeptets s = .next t ∧ Replied s t ⟨.ok, 0, out⟩ ∧
      ∀ (q : State) (n : Half) (rest : List Byte), q.din = out ++ rest → n.toNat = out.length →
        ∃ u, exec (.fromSeptets n) q = .next u ∧ Replied q u okEmpty ∧
          u.buf.used.toNat = 7 * ((s.buf.used.toNat + 6) / 7) ∧ u.buf.cursor = 0 ∧
          ∀ i, bitAt u.buf.store i = (decide (i < s.buf.used.toNat) && bitAt s.buf.store i)

/-- Derived from R100 and R104 (the spec's [derived] R109): a buffer beyond 126 bits gives 19 bytes, which no FROMSEPTETS takes. -/
def Obligations.FullBufferCannotBeLoadedBack : Prop :=
  ∀ s : State, 126 < s.buf.used.toNat → s.buf.used.toNat ≤ 128 →
    ∃ t out, exec .toSeptets s = .next t ∧ Replied s t ⟨.ok, 0, out⟩ ∧ out.length = 19 ∧
      ∀ (q : State) (rest : List Byte), q.din = out ++ rest →
        ∃ u, exec (.fromSeptets 19) q = .next u ∧ u.buf = q.buf ∧ u.recs = q.recs ∧ Replied q u (failed .errCapacity)

/-- Derived from R100 and R104 (the spec's [derived] R110): FROMSEPTETS then TOSEPTETS returns the same bytes with bit 7 cleared. -/
def Obligations.SeptetStreamSurvivesBuffer : Prop :=
  ∀ (s : State) (n : Half) (payload rest : List Byte), s.din = payload ++ rest → payload.length = n.toNat →
    7 * n.toNat ≤ 128 →
    ∃ t u, exec (.fromSeptets n) s = .next t ∧ exec .toSeptets t = .next u ∧
      u.responses = s.responses ++ [okEmpty, ⟨.ok, 0, payload.map (· &&& 0x7F#8)⟩]

/-- Derived from R16, R81, R82, R100 and R104: a conforming pack on one block and a conforming unpack on any other give every value
back, cut to its width. -/
def Obligations.PackedFieldsUnpackOnAnotherBlock : Prop :=
  ∀ (s : State) (fs : List (WField × Half)), (∀ f ∈ fs, f.1.toNat ≤ 16) → widthSum (fs.map Prod.fst) ≤ 126 →
    ∃ t out, execAll (.clear :: (addFields fs ++ [.toSeptets])) s = .next t ∧
      t.responses = s.responses ++ List.replicate (fs.length + 1) okEmpty ++ [⟨.ok, 0, out⟩] ∧
      ∀ (q : State) (n : Half) (rest : List Byte), q.din = out ++ rest → n.toNat = out.length →
        ∃ u, execAll (.fromSeptets n :: extracts (fs.map Prod.fst)) q = .next u ∧
          u.responses = q.responses ++ okEmpty ::
            fs.map (fun f => ⟨.ok, BitVec.ofNat 16 (f.2.toNat % 2 ^ f.1.toNat), []⟩)

/-! ### Layer 2 -/

/-- R121 (decision D13): SETREC writes all 16 bits of one register and nothing else; a register above 13 is illegal, nothing written. -/
def Obligations.SetRecWritesOneRegister : Prop :=
  (∀ (s : State) (i : WField) (v : Half) (h : i.toNat < 14),
    ∃ t, exec (.setRec i v) s = .next t ∧ t.recs[i.toNat] = v ∧
      (∀ j : Fin 14, j.val ≠ i.toNat → t.recs[j] = s.recs[j]) ∧
      t.buf = s.buf ∧ t.din = s.din ∧ Replied s t okEmpty) ∧
  (∀ (s : State) (i : WField) (v : Half), 13 < i.toNat →
    ∃ t, exec (.setRec i v) s = .next t ∧ SameCore s t ∧ Replied s t (failed .errIllegal))

/-- R122 (decision D13): GETREC returns all 16 bits of a register and writes no state; a register above 13 is illegal. -/
def Obligations.GetRecReturnsRegister : Prop :=
  (∀ (s : State) (i : WField) (h : i.toNat < 14),
    ∃ t, exec (.getRec i) s = .next t ∧ SameCore s t ∧ Replied s t ⟨.ok, s.recs[i.toNat], []⟩) ∧
  (∀ (s : State) (i : WField), 13 < i.toNat →
    ∃ t, exec (.getRec i) s = .next t ∧ SameCore s t ∧ Replied s t (failed .errIllegal))

/-- R126, with the store positions of R66: ENCCFG lays the low bits of each register at its place, leaves `U` = 87, `C` = 0 and zeros
beyond, and returns 13 bytes, the septets of that store. The record registers and the channel are as before. -/
def Obligations.EncCfgPacksRecord : Prop :=
  ∀ s : State, ∃ t out, exec .encCfg s = .next t ∧ t.buf.used = 87 ∧ t.buf.cursor = 0 ∧
    (∀ (i : Fin 14), ∀ j < specWidth i,
      bitAt t.buf.store (specOffset i + j) = s.recs[i].getLsbD (specWidth i - 1 - j)) ∧
    (∀ a, 87 ≤ a → bitAt t.buf.store a = false) ∧
    out.length = 13 ∧ (∀ a < 91, streamBit out a = bitAt t.buf.store a) ∧ (∀ x ∈ out, x.toNat ≤ 0x7F) ∧
    t.recs = s.recs ∧ t.din = s.din ∧ Replied s t ⟨.ok, 0, out⟩

/-- Derived from R63, R64 and R126 (the spec's [derived] R66, R134): the 13 bytes of ENCCFG, byte by byte from the registers, as R66's second
table gives them; the last byte ends in 4 pad bits. -/
def Obligations.ConfigurationPayloadLayout : Prop :=
  ∀ s : State, ∃ t out, exec .encCfg s = .next t ∧ t.responses = s.responses ++ [⟨.ok, 0, out⟩] ∧
    out.map BitVec.toNat = specConfigPayload s.recs

/-- R128, with R67's layout: ENCVER packs 16 bits, leaves `U` = 16 and `C` = 0 and returns 3 bytes. -/
def Obligations.EncVerPacksVersion : Prop :=
  ∀ (s : State) (v : Half), ∃ t out, exec (.encVer v) s = .next t ∧ t.buf.used = 16 ∧ t.buf.cursor = 0 ∧
    (∀ j < 16, bitAt t.buf.store j = v.getLsbD (15 - j)) ∧ (∀ a, 16 ≤ a → bitAt t.buf.store a = false) ∧
    t.recs = s.recs ∧ t.din = s.din ∧ Replied s t ⟨.ok, 0, out⟩ ∧
    out.map BitVec.toNat = [slice v 15 9, slice v 8 2, slice v 1 0 * 32]

/-- R127: DECCFG with 13 to 18 bytes loads the payload and writes every register with its field, zero-extended. -/
def Obligations.DecCfgUnpacksRecord : Prop :=
  ∀ (s : State) (n : Half) (payload rest : List Byte), s.din = payload ++ rest → payload.length = n.toNat →
    13 ≤ n.toNat → n.toNat ≤ 18 →
    ∃ t, exec (.decCfg n) s = .next t ∧ t.buf.used.toNat = 7 * n.toNat ∧ t.buf.cursor = 87 ∧
      (∀ i, bitAt t.buf.store i = (decide (i < 7 * n.toNat) && streamBit payload i)) ∧
      (∀ i : Fin 14, t.recs[i].toNat = streamField payload (specOffset i) (specWidth i)) ∧
      t.din = rest ∧ Replied s t okEmpty

/-- R131 on a short payload, with R127: for `n` below 13 and other than 9, a field that fits is unpacked and every other field is 0; the
status is `OK`. (That later narrower fields do not read on rests on the spec's decision D9.) -/
def Obligations.ShortConfigurationReadsZeros : Prop :=
  ∀ (s : State) (n : Half) (payload rest : List Byte), s.din = payload ++ rest → payload.length = n.toNat →
    n.toNat < 13 → n.toNat ≠ 9 →
    ∃ t, exec (.decCfg n) s = .next t ∧ t.buf.used.toNat = 7 * n.toNat ∧
      (∀ i, bitAt t.buf.store i = (decide (i < 7 * n.toNat) && streamBit payload i)) ∧
      (∀ i : Fin 14, t.recs[i].toNat =
        if specOffset i + specWidth i ≤ 7 * n.toNat then streamField payload (specOffset i) (specWidth i) else 0) ∧
      t.din = rest ∧ Replied s t okEmpty

/-- R131 with 9 bytes, where the spec's decision D9 shows: wpm100 underflows and is 0, channel reads bits 50..56, note and volume are
0. -/
def Obligations.NineSeptetConfiguration : Prop :=
  ∀ (s : State) (payload rest : List Byte), s.din = payload ++ rest → payload.length = 9 →
    ∃ t, exec (.decCfg 9) s = .next t ∧ t.buf.used = 63 ∧ t.buf.cursor = 57 ∧
      (∀ i : Fin 14, i.val < 10 → t.recs[i].toNat = streamField payload (specOffset i) (specWidth i)) ∧
      t.recs[10] = 0 ∧ t.recs[11].toNat = streamField payload 50 7 ∧ t.recs[12] = 0 ∧ t.recs[13] = 0 ∧
      t.din = rest ∧ Replied s t okEmpty

/-- R129, with R131 on a short payload: DECVER with at most 18 bytes loads them and returns the first 16 bits of the payload, or 0 with
status `OK` when there are fewer than 3 bytes; the record registers are as before. -/
def Obligations.DecVerReturnsVersion : Prop :=
  ∀ (s : State) (n : Half) (payload rest : List Byte), s.din = payload ++ rest → payload.length = n.toNat →
    n.toNat ≤ 18 →
    ∃ t r, exec (.decVer n) s = .next t ∧
      r.toNat = (if 3 ≤ n.toNat then streamField payload 0 16 else 0) ∧
      t.buf.used.toNat = 7 * n.toNat ∧ t.buf.cursor.toNat = (if 3 ≤ n.toNat then 16 else 0) ∧
      (∀ i, bitAt t.buf.store i = (decide (i < 7 * n.toNat) && streamBit payload i)) ∧
      t.recs = s.recs ∧ t.din = rest ∧ Replied s t ⟨.ok, r, []⟩

/-- R126 (decision D16): ENCCFG returns the payload and leaves the state of its expansion, with one response: CLEAR, the 14 ADDFIELDs
(which cut each register to its width), TOSEPTETS. It leaves `U` = 87 and `C` = 0, returns 13 bytes and changes no record register. -/
def Obligations.EncCfgIsItsExpansion : Prop :=
  ∀ s : State, ∃ t u out,
    exec .encCfg s = .next t ∧ execAll (.clear :: (addFields (specFields s.recs) ++ [.toSeptets])) s = .next u ∧
    Replied s t ⟨.ok, 0, out⟩ ∧
    u.responses = s.responses ++ List.replicate 15 okEmpty ++ [⟨.ok, 0, out⟩] ∧
    t.buf = u.buf ∧ t.buf.used = 87 ∧ t.buf.cursor = 0 ∧ out.length = 13 ∧
    t.recs = s.recs ∧ u.recs = s.recs ∧ t.din = s.din ∧ u.din = s.din

/-- R128 (decision D15): ENCVER is CLEAR, ADDFIELD 16, TOSEPTETS with one response. It leaves `U` = 16 and `C` = 0, returns 3 bytes and
changes no record register. -/
def Obligations.EncVerIsItsExpansion : Prop :=
  ∀ (s : State) (v : Half), ∃ t u out,
    exec (.encVer v) s = .next t ∧ execAll [.clear, .addField 16 v, .toSeptets] s = .next u ∧
    Replied s t ⟨.ok, 0, out⟩ ∧ u.responses = s.responses ++ [okEmpty, okEmpty, ⟨.ok, 0, out⟩] ∧
    t.buf = u.buf ∧ t.buf.used = 16 ∧ t.buf.cursor = 0 ∧ out.length = 3 ∧
    t.recs = s.recs ∧ u.recs = s.recs ∧ t.din = s.din ∧ u.din = s.din

/-- R127 (decisions D16, D17): DECCFG with at most 18 bytes leaves the state of its expansion, with the extracted values in the record
registers; `U` = 7n, and `C` = 87 from 13 bytes on. With 19 bytes or more it fails with `ERR_MALFORMED`: the bytes are taken (R189),
nothing else changes. -/
def Obligations.DecCfgIsItsExpansion : Prop :=
  ∀ (s : State) (n : Half) (payload rest : List Byte), s.din = payload ++ rest → payload.length = n.toNat →
    (n.toNat ≤ 18 → ∃ t u,
      exec (.decCfg n) s = .next t ∧ execAll (.clear :: .fromSeptets n :: extracts specWidths) s = .next u ∧
      Replied s t okEmpty ∧
      u.responses = s.responses ++ [okEmpty, okEmpty] ++ t.recs.toList.map (fun r => ⟨.ok, r, []⟩) ∧
      t.buf = u.buf ∧ t.buf.used.toNat = 7 * n.toNat ∧ (13 ≤ n.toNat → t.buf.cursor = 87) ∧ t.din = rest ∧ u.din = rest) ∧
    (19 ≤ n.toNat → ∃ t, exec (.decCfg n) s = .next t ∧ t.buf = s.buf ∧ t.recs = s.recs ∧ t.din = rest ∧
      Replied s t (failed .errMalformed))

/-- R129 (decisions D16, D17): DECVER with at most 18 bytes leaves the state of its expansion, with the extracted value as the result;
`U` = 7n, `C` = 16, or 0 when there are fewer than 3 bytes. With 19 bytes or more it fails with `ERR_MALFORMED`: the bytes are taken
(R189), nothing else changes. -/
def Obligations.DecVerIsItsExpansion : Prop :=
  ∀ (s : State) (n : Half) (payload rest : List Byte), s.din = payload ++ rest → payload.length = n.toNat →
    (n.toNat ≤ 18 → ∃ t u r,
      exec (.decVer n) s = .next t ∧ execAll [.clear, .fromSeptets n, .extract 16] s = .next u ∧
      Replied s t ⟨.ok, r, []⟩ ∧ u.responses = s.responses ++ [okEmpty, okEmpty, ⟨.ok, r, []⟩] ∧
      t.buf = u.buf ∧ t.buf.used.toNat = 7 * n.toNat ∧ t.buf.cursor.toNat = (if 3 ≤ n.toNat then 16 else 0) ∧
      t.recs = s.recs ∧ u.recs = s.recs ∧ t.din = rest ∧ u.din = rest) ∧
    (19 ≤ n.toNat → ∃ t, exec (.decVer n) s = .next t ∧ t.buf = s.buf ∧ t.recs = s.recs ∧ t.din = rest ∧
      Replied s t (failed .errMalformed))

/-- R131: bytes beyond the thirteenth (third) are loaded and never read: DECCFG leaves the same registers, DECVER gives the same
result. -/
def Obligations.ExtraSeptetsAreNeverRead : Prop :=
  (∀ (s : State) (n : Half) (payload extra rest : List Byte), payload.length = 13 →
    n.toNat = (payload ++ extra).length → n.toNat ≤ 18 → ∃ t u,
    exec (.decCfg n) { s with din := payload ++ extra ++ rest } = .next t ∧
    exec (.decCfg 13) { s with din := payload ++ rest } = .next u ∧ t.recs = u.recs ∧ t.responses = u.responses) ∧
  (∀ (s : State) (n : Half) (payload extra rest : List Byte), payload.length = 3 →
    n.toNat = (payload ++ extra).length → n.toNat ≤ 18 → ∃ t u,
    exec (.decVer n) { s with din := payload ++ extra ++ rest } = .next t ∧
    exec (.decVer 3) { s with din := payload ++ rest } = .next u ∧ t.responses = u.responses)

/-- Derived from R126 and R127 (the spec's [derived] R133): encode on one block, decode on any other, gives every register modulo its
field's width, and the same record when every register fits its field. -/
def Obligations.ConfigurationRoundTrip : Prop :=
  ∀ s : State, ∃ t out, exec .encCfg s = .next t ∧ Replied s t ⟨.ok, 0, out⟩ ∧
    ∀ (q : State) (rest : List Byte), q.din = out ++ rest →
      ∃ u, exec (.decCfg 13) q = .next u ∧ Replied q u okEmpty ∧
        (∀ i : Fin 14, u.recs[i].toNat = s.recs[i].toNat % 2 ^ specWidth i) ∧
        ((∀ i : Fin 14, s.recs[i].toNat < 2 ^ specWidth i) → u.recs = s.recs)

/-- Derived from R128 and R129 (the spec's [derived] R133): a version comes back as it went. -/
def Obligations.VersionRoundTrip : Prop :=
  ∀ (s : State) (v : Half), ∃ t out, exec (.encVer v) s = .next t ∧ Replied s t ⟨.ok, 0, out⟩ ∧
    ∀ (q : State) (rest : List Byte), q.din = out ++ rest →
      ∃ u, exec (.decVer 3) q = .next u ∧ Replied q u ⟨.ok, v, []⟩

/-- Derived from R132 with R82, R100, R126 and R127 (decision D16): layer 1 reads what a layer-2 command left. TOSEPTETS after ENCCFG
returns the same 13 bytes again; EXTRACT 4 after a DECCFG of 13 bytes returns the four pad bits, the low bits of the last byte. -/
def Obligations.LayerOneReadsWhatLayerTwoLeft : Prop :=
  (∀ s : State, ∃ t u out, exec .encCfg s = .next t ∧ exec .toSeptets t = .next u ∧ out.length = 13 ∧
    u.responses = s.responses ++ [⟨.ok, 0, out⟩, ⟨.ok, 0, out⟩]) ∧
  (∀ (s : State) (payload rest : List Byte) (h : payload.length = 13), s.din = payload ++ rest →
    ∃ t u r, exec (.decCfg 13) s = .next t ∧ exec (.extract 4) t = .next u ∧
      r.toNat = payload[12].toNat % 2 ^ 4 ∧ u.responses = s.responses ++ [okEmpty, ⟨.ok, r, []⟩])

/-! ### The whole machine -/

/-- R158 (decision D17): a command whose status is not `OK` changes no state, and its response is the status, result 0 and no
payload; so for a command performed and for a word that the host issues, legal or not. -/
def Obligations.FailureChangesNothing : Prop :=
  (∀ (i : Instr) (s t : State) (r : Response), exec i s = .next t → t.responses = s.responses ++ [r] → r.status ≠ .ok →
    t.buf = s.buf ∧ t.recs = s.recs ∧ r.result = 0 ∧ r.payload = []) ∧
  (∀ (s t : State) (word : CmdWord) (payload : List Byte) (rest : List HostMove) (r : Response),
    s.busy = none → s.host = .command word payload :: rest → step s = .next t → t.responses = s.responses ++ [r] →
    r.status ≠ .ok → t.buf = s.buf ∧ t.recs = s.recs ∧ r.result = 0 ∧ r.payload = [])

/-- Derived from R158 and R20 (the spec's [derived] R160): a failure is not sticky. After it a command is performed as if the failing
one had not been issued: on the same bytes it leaves the same block and gives the same response. -/
def Obligations.FailureIsNotSticky : Prop :=
  ∀ (i j : Instr) (s t : State) (r : Response) (bytes : List Byte), exec i s = .next t →
    t.responses = s.responses ++ [r] → r.status ≠ .ok → payloadCount j ≤ bytes.length →
    ∃ u v q, exec j { t with din := bytes } = .next u ∧ exec j { s with din := bytes } = .next v ∧
      u.buf = v.buf ∧ u.recs = v.recs ∧ u.din = v.din ∧
      u.responses = t.responses ++ [q] ∧ v.responses = s.responses ++ [q]

/-- Derived from R6 and R50, R55: a command with its payload at hand returns exactly one response and takes exactly its payload. -/
def Obligations.OneResponsePerCommand : Prop :=
  ∀ (i : Instr) (s : State), payloadCount i ≤ s.din.length →
    ∃ t r, exec i s = .next t ∧ Replied s t r ∧ t.din = s.din.drop (payloadCount i)

/-- Derived from R58, R59 and R102: the four status numbers; and a 5-bit count says how many bytes a response carries, in every state
that meets the invariant. -/
def Obligations.ResponseFitsItsPorts : Prop :=
  (Status.code .ok = 0 ∧ Status.code .errCapacity = 1 ∧ Status.code .errMalformed = 2 ∧ Status.code .errIllegal = 3) ∧
    ∀ s : State, s.Inv → ∀ r ∈ s.responses, r.mlen.toNat = r.payload.length

/-- Derived from R17, R121 and R127: only SETREC and DECCFG write record registers. -/
def Obligations.OnlySetRecAndDecCfgWriteRegisters : Prop :=
  ∀ (i : Instr) (s t : State), exec i s = .next t → t.recs ≠ s.recs →
    (∃ r v, i = .setRec r v) ∨ (∃ n, i = .decCfg n)

/-- Derived from R12, R13 and R38: EXTRACT, TOSEPTETS, SETREC and GETREC never change the store or `U`; ADDFIELD, TOSEPTETS, SETREC and
GETREC never change `C`. -/
def Obligations.ReadersLeaveStoreAndPointers : Prop :=
  ∀ (i : Instr) (s t : State), exec i s = .next t →
    (((∃ w, i = .extract w) ∨ i = .toSeptets ∨ (∃ r v, i = .setRec r v) ∨ (∃ r, i = .getRec r)) →
      t.buf.store = s.buf.store ∧ t.buf.used = s.buf.used) ∧
    (((∃ w v, i = .addField w v) ∨ i = .toSeptets ∨ (∃ r v, i = .setRec r v) ∨ (∃ r, i = .getRec r)) →
      t.buf.cursor = s.buf.cursor)

/-- Derived from R80, R100 and R104 (the spec's [derived] R38): CLEAR and FROMSEPTETS with the same payload leave the same buffer when
repeated, and TOSEPTETS returns the same payload again. -/
def Obligations.RepeatableCommands : Prop :=
  (∀ s : State, ∃ t u, exec .clear s = .next t ∧ exec .clear t = .next u ∧ u.buf = t.buf ∧ u.recs = t.recs) ∧
  (∀ s : State, ∃ t u out, exec .toSeptets s = .next t ∧ exec .toSeptets t = .next u ∧
    u.responses = s.responses ++ [⟨.ok, 0, out⟩, ⟨.ok, 0, out⟩]) ∧
  (∀ (s : State) (n : Half) (payload rest : List Byte), s.din = payload ++ payload ++ rest → payload.length = n.toNat →
    ∃ t u r, exec (.fromSeptets n) s = .next t ∧ exec (.fromSeptets n) t = .next u ∧ u.buf = t.buf ∧ u.recs = t.recs ∧
      u.responses = s.responses ++ [r, r])

/-- Derived from R132 and R104 (decisions D11, D16): a successful encode, decode or FROMSEPTETS does not depend on what the buffer held:
the next state is the same. -/
def Obligations.OldBufferHasNoInfluence : Prop :=
  ∀ (i : Instr) (s t : State) (r : Response) (b : BitBuffer),
    (i = .encCfg ∨ (∃ v, i = .encVer v) ∨ (∃ n, i = .decCfg n) ∨ (∃ n, i = .decVer n) ∨ (∃ n, i = .fromSeptets n)) →
    exec i s = .next t → t.responses = s.responses ++ [r] → r.status = .ok →
    exec i { s with buf := b } = .next t

/-- Derived from R16, R25 and R132: when every command of a conforming block is answered with `OK`, the responses and the record registers
it leaves do not depend on what the buffer held before it. -/
def Obligations.ConformingBlockIgnoresOldBuffer : Prop :=
  ∀ (packed : Nat) (is : List Instr) (s t : State) (rs : List Response) (b : BitBuffer),
    ConformingBlock packed is → execAll is s = .next t → t.responses = s.responses ++ rs → rs.length = is.length →
    (∀ r ∈ rs, r.status = .ok) →
    ∃ u, execAll is { s with buf := b } = .next u ∧ u.responses = t.responses ∧ u.recs = t.recs

/-! ### The host's side of wpm -/

/-- Derived from R139 with I10, and R140 (the spec's [derived] R141), for every rounding function with the one property the spec gives
(D14, log entry 7): a negative wpm is refused; any other is stored as `round100(wpm) mod 2^16`; a wpm up to 655.35 that the host converts, stores with SETREC, encodes, decodes on any block and converts back differs
by at most 0.005; 20.0 is carried as 2000 and comes back as exactly 20. -/
def Obligations.WpmSurvivesRoundTrip : Prop :=
  (∀ (ρ : Rounding) (wpm : ℝ), wpm < 0 → wpmToRecord ρ wpm = none) ∧
  (∀ (ρ : Rounding) (wpm : ℝ), 0 ≤ wpm →
    ∃ r, wpmToRecord ρ wpm = some r ∧ r.toNat = ρ.round100 wpm % 2 ^ 16) ∧
  (∀ ρ : Rounding, wpmToRecord ρ 20 = some 2000) ∧ recordToWpm 2000 = 20 ∧
  ∀ (ρ : Rounding) (wpm : ℝ) (s : State), 0 ≤ wpm → wpm ≤ 655.35 →
    ∃ r s' t out, wpmToRecord ρ wpm = some r ∧ exec (.setRec 10 r) s = .next s' ∧ exec .encCfg s' = .next t ∧
      Replied s' t ⟨.ok, 0, out⟩ ∧
      ∀ (q : State) (rest : List Byte), q.din = out ++ rest →
        ∃ u, exec (.decCfg 13) q = .next u ∧ |((recordToWpm u.recs[10] : ℚ) : ℝ) - wpm| ≤ 0.005
end

