-- ==== Sys2Proof/Laws/State.lean ====
section
/-! SUPPORT. One lemma per field per update of State, so that no later proof unfolds a record update. -/

namespace Sys2Proof.Machine

variable (s : State) (st : Status) (r : Half) (p : List Byte) (b : BitBuffer) (q : Records) (rest : List HostMove)

@[simp] theorem respond_buf : (s.respond st r p).buf = s.buf := rfl
@[simp] theorem respond_recs : (s.respond st r p).recs = s.recs := rfl
@[simp] theorem respond_host : (s.respond st r p).host = s.host := rfl
@[simp] theorem respond_din : (s.respond st r p).din = s.din := rfl
@[simp] theorem respond_busy : (s.respond st r p).busy = none := rfl
@[simp] theorem respond_responses : (s.respond st r p).responses = s.responses ++ [⟨st, r, p⟩] := rfl

@[simp] theorem fail_buf : (s.fail st).buf = s.buf := rfl
@[simp] theorem fail_recs : (s.fail st).recs = s.recs := rfl
@[simp] theorem fail_host : (s.fail st).host = s.host := rfl
@[simp] theorem fail_din : (s.fail st).din = s.din := rfl
@[simp] theorem fail_busy : (s.fail st).busy = none := rfl
@[simp] theorem fail_responses : (s.fail st).responses = s.responses ++ [⟨st, 0, []⟩] := rfl

@[simp] theorem withBuf_buf : (s.withBuf b).buf = b := rfl
@[simp] theorem withBuf_recs : (s.withBuf b).recs = s.recs := rfl
@[simp] theorem withBuf_host : (s.withBuf b).host = s.host := rfl
@[simp] theorem withBuf_din : (s.withBuf b).din = s.din := rfl
@[simp] theorem withBuf_busy : (s.withBuf b).busy = s.busy := rfl
@[simp] theorem withBuf_responses : (s.withBuf b).responses = s.responses := rfl

@[simp] theorem withRecs_buf : (s.withRecs q).buf = s.buf := rfl
@[simp] theorem withRecs_recs : (s.withRecs q).recs = q := rfl
@[simp] theorem withRecs_host : (s.withRecs q).host = s.host := rfl
@[simp] theorem withRecs_din : (s.withRecs q).din = s.din := rfl
@[simp] theorem withRecs_busy : (s.withRecs q).busy = s.busy := rfl
@[simp] theorem withRecs_responses : (s.withRecs q).responses = s.responses := rfl

@[simp] theorem accept_buf : (s.accept p rest).buf = s.buf := rfl
@[simp] theorem accept_recs : (s.accept p rest).recs = s.recs := rfl
@[simp] theorem accept_host : (s.accept p rest).host = rest := rfl
@[simp] theorem accept_din : (s.accept p rest).din = s.din ++ p := rfl
@[simp] theorem accept_busy : (s.accept p rest).busy = s.busy := rfl
@[simp] theorem accept_responses : (s.accept p rest).responses = s.responses := rfl

@[simp] theorem applyReset_buf : (s.applyReset rest).buf = BitBuffer.reset := rfl
@[simp] theorem applyReset_recs : (s.applyReset rest).recs = Vector.replicate 14 0 := rfl
@[simp] theorem applyReset_host : (s.applyReset rest).host = rest := rfl
@[simp] theorem applyReset_din : (s.applyReset rest).din = if s.busy.isSome then [] else s.din := rfl
@[simp] theorem applyReset_busy : (s.applyReset rest).busy = none := rfl
@[simp] theorem applyReset_responses : (s.applyReset rest).responses = [] := rfl

@[simp] theorem clear_store : b.clear.store = 0 := rfl
@[simp] theorem clear_used : b.clear.used = 0 := rfl
@[simp] theorem clear_cursor : b.clear.cursor = 0 := rfl

end Sys2Proof.Machine
end

