-- ==== Sys2Proof/Laws/Bits.lean ====
section
/-! SUPPORT. Reading and writing bits of the store: what each primitive gives, bit by bit. -/

namespace Sys2Proof.Machine

theorem bitAt_beyond {S : Store} {i : Nat} (h : 128 ≤ i) : bitAt S i = false := by
  simp [bitAt, BitVec.getMsbD, Nat.not_lt.mpr h]

@[simp] theorem bitAt_zero (i : Nat) : bitAt (0#128) i = false := by simp [bitAt]

/-- Two stores with the same bits are the same store. -/
theorem store_ext {S T : Store} (h : ∀ i < 128, bitAt S i = bitAt T i) : S = T :=
  BitVec.eq_of_getMsbD_eq h

/-- A read after a one-bit write. -/
theorem bitAt_setBit (S : Store) (i j : Nat) (v : Bool) :
    bitAt (setBit S i v) j = if i = j ∧ j < 128 then v else bitAt S j := by
  unfold setBit bitAt
  by_cases hi : i < Config.cap
  · by_cases hj : j < 128
    · have e : (127 - i = 127 - j) ↔ i = j := by simp only [Config.cap] at hi; omega
      cases v <;> by_cases hij : i = j <;>
        simp_all [BitVec.getMsbD, BitVec.getLsbD_twoPow] <;> omega
    · simp [BitVec.getMsbD, hj]
  · have : ¬ (i = j ∧ j < 128) := by simp only [Config.cap] at hi; omega
    simp [hi, this]

/-- A read after a write of `w` bits. -/
theorem bitAt_writeBits (S : Store) (a : Nat) (f : Nat → Bool) (w i : Nat) :
    bitAt (writeBits S a f w) i = if a ≤ i ∧ i < a + w ∧ i < 128 then f (i - a) else bitAt S i := by
  induction w with
  | zero => simp [writeBits]; intros; omega
  | succ w ih =>
    rw [writeBits, bitAt_setBit, ih]
    by_cases h : a + w = i
    · subst h
      by_cases h' : a + w < 128 <;> simp [h']
    · have : (a ≤ i ∧ i < a + (w + 1) ∧ i < 128) ↔ (a ≤ i ∧ i < a + w ∧ i < 128) := by omega
      simp [h, this]

theorem bitAt_bitWrite {n : Nat} (S : Store) (a w : Nat) (v : BitVec n) (i : Nat) :
    bitAt (bitWrite S a w v) i =
      if a ≤ i ∧ i < a + w ∧ i < 128 then v.getLsbD (w - 1 - (i - a)) else bitAt S i :=
  bitAt_writeBits S a _ w i

theorem natOfBits_lt (f : Nat → Bool) (w : Nat) : natOfBits f w < 2 ^ w := by
  induction w with
  | zero => simp [natOfBits]
  | succ w ih => rw [natOfBits, Nat.pow_succ]; have := (f w).toNat_lt; omega

/-- Bit `w-1-j` of the number is the `j`-th bit read. -/
theorem natOfBits_testBit (f : Nat → Bool) (w j : Nat) :
    (natOfBits f w).testBit j = (decide (j < w) && f (w - 1 - j)) := by
  induction w generalizing j with
  | zero => simp [natOfBits]
  | succ w ih =>
    cases j with
    | zero => cases h : f w <;> simp [natOfBits, h, Nat.testBit_zero]
    | succ j =>
      have : (2 * natOfBits f w + (f w).toNat) / 2 = natOfBits f w := by have := (f w).toNat_lt; omega
      rw [natOfBits, Nat.testBit_succ, this, ih]
      simp only [Nat.add_lt_add_iff_right]
      congr 2
      omega

theorem natOfBits_congr {f g : Nat → Bool} {w : Nat} (h : ∀ j < w, f j = g j) : natOfBits f w = natOfBits g w := by
  induction w with
  | zero => rfl
  | succ w ih => rw [natOfBits, natOfBits, ih fun j hj => h j (by omega), h w (by omega)]

/-- Reading on: the first `a` bits, then the next `w`. -/
theorem natOfBits_add (f : Nat → Bool) (a w : Nat) :
    natOfBits f (a + w) = natOfBits f a * 2 ^ w + natOfBits (fun j => f (a + j)) w := by
  induction w with
  | zero => simp [natOfBits]
  | succ w ih => rw [← Nat.add_assoc, natOfBits, ih, natOfBits, Nat.pow_succ]; ring

/-- The bits of a number, most significant first, read back as that number's low bits. -/
theorem natOfBits_testBits (n w : Nat) : natOfBits (fun j => n.testBit (w - 1 - j)) w = n % 2 ^ w := by
  apply Nat.eq_of_testBit_eq
  intro j
  rw [natOfBits_testBit, Nat.testBit_mod_two_pow]
  by_cases h : j < w
  · simp [h]; congr 1; omega
  · simp [h]

theorem bitRead_lt (S : Store) (a w : Nat) : bitRead S a w < 2 ^ w := natOfBits_lt _ _

theorem bitRead_testBit (S : Store) (a w j : Nat) :
    (bitRead S a w).testBit j = (decide (j < w) && bitAt S (a + (w - 1 - j))) := natOfBits_testBit _ _ _

end Sys2Proof.Machine
end

