-- ==== Sys2Proof/Laws/Buffer.lean ====
section
/-! SUPPORT. Layer 1: what ADDFIELD and EXTRACT can do, said once, and the written part as a string of bits. -/

namespace Sys2Proof.Machine

/-! ### The invariant -/

theorem clear_inv (b : BitBuffer) : b.clear.Inv := ⟨by simp, by simp, fun i _ _ => by simp⟩

/-- The canonical form holds at every index, beyond the capacity too. -/
theorem BitBuffer.Inv.tail {b : BitBuffer} (h : b.Inv) {i : Nat} (hi : b.used.toNat ≤ i) : bitAt b.store i = false := by
  by_cases h' : i < 128
  · exact h.2.2 i h' hi
  · exact bitAt_beyond (by omega)

/-! ### ADDFIELD -/

/-- Everything a successful ADDFIELD does. -/
theorem addField_ok {b b' : BitBuffer} {w : Nat} {v : Half} (h : b.addField w v = .ok b') :
    w ≤ 16 ∧ b.used.toNat + w ≤ 128 ∧ b'.used.toNat = b.used.toNat + w ∧ b'.cursor = b.cursor ∧
      ∀ i, bitAt b'.store i =
        if b.used.toNat ≤ i ∧ i < b.used.toNat + w then v.getLsbD (w - 1 - (i - b.used.toNat)) else bitAt b.store i := by
  unfold BitBuffer.addField at h
  split at h
  · cases h
  · rename_i hw
    split at h
    · rename_i hr
      simp only [BitBuffer.hasRoom, decide_eq_true_eq] at hr
      cases h
      simp only [Config.maxW, Config.cap] at hw hr
      refine ⟨by omega, hr, ?_, rfl, ?_⟩
      · simp only [BitVec.toNat_ofNat]; omega
      · intro i
        rw [bitAt_bitWrite]
        by_cases c : b.used.toNat ≤ i ∧ i < b.used.toNat + w
        · rw [if_pos ⟨c.1, c.2, by omega⟩, if_pos c]
        · rw [if_neg (by tauto), if_neg c]
    · cases h

/-- When ADDFIELD succeeds. -/
theorem addField_succeeds {b : BitBuffer} {w : Nat} (v : Half) (hw : w ≤ 16) (hr : b.used.toNat + w ≤ 128) :
    ∃ b', b.addField w v = .ok b' := by
  simp [BitBuffer.addField, BitBuffer.hasRoom, Config.maxW, Config.cap, hr, show ¬ 16 < w by omega]

/-- When and how ADDFIELD fails. -/
theorem addField_error {b : BitBuffer} {w : Nat} {v : Half} {e : Status} (h : b.addField w v = .error e) :
    (16 < w ∧ e = .errIllegal) ∨ (w ≤ 16 ∧ 128 < b.used.toNat + w ∧ e = .errCapacity) := by
  unfold BitBuffer.addField at h
  split at h
  · cases h; exact .inl ⟨by simpa using ‹_›, rfl⟩
  · rename_i hw
    split at h
    · cases h
    · rename_i hr
      cases h
      simp only [BitBuffer.hasRoom, decide_eq_true_eq, Config.maxW, Config.cap] at hw hr
      exact .inr ⟨by omega, by omega, rfl⟩

theorem addField_inv {b b' : BitBuffer} {w : Nat} {v : Half} (h : b.addField w v = .ok b') (hb : b.Inv) : b'.Inv := by
  obtain ⟨-, hr, hu, hc, hs⟩ := addField_ok h
  refine ⟨by rw [hu, hc]; have := hb.1; omega, by omega, fun i _ hi => ?_⟩
  rw [hs, if_neg (by omega)]
  exact hb.tail (by omega)

/-! ### EXTRACT -/

/-- Everything an EXTRACT that is no illegal word does. -/
theorem extract_ok {b b' : BitBuffer} {w : Nat} {r : Half} (h : b.extract w = .ok (r, b')) :
    w ≤ 16 ∧ b'.store = b.store ∧ b'.used = b.used ∧
      ((b.cursor.toNat + w ≤ b.used.toNat ∧ r.toNat = bitRead b.store b.cursor.toNat w ∧
          b'.cursor.toNat = b.cursor.toNat + w) ∨
        (b.used.toNat < b.cursor.toNat + w ∧ r = 0 ∧ b' = b)) := by
  unfold BitBuffer.extract at h
  split at h
  · cases h
  · rename_i hw
    simp only [Config.maxW] at hw
    split at h
    · rename_i hb
      simp only [BitBuffer.hasBits, decide_eq_true_eq] at hb
      cases h
      refine ⟨by omega, rfl, rfl, .inl ⟨hb, ?_, ?_⟩⟩
      · have h1 := bitRead_lt b.store b.cursor.toNat w
        have h2 : 2 ^ w ≤ 2 ^ 16 := Nat.pow_le_pow_right (by omega) (by omega)
        rw [BitVec.toNat_ofNat, Nat.mod_eq_of_lt (by omega)]
      · have := b.used.isLt
        simp only [BitVec.toNat_ofNat]; omega
    · rename_i hb
      simp only [BitBuffer.hasBits, decide_eq_true_eq] at hb
      cases h
      exact ⟨by omega, rfl, rfl, .inr ⟨by omega, rfl, rfl⟩⟩

/-- EXTRACT fails on no width of at most 16. -/
theorem extract_succeeds {b : BitBuffer} {w : Nat} (hw : w ≤ 16) : ∃ r b', b.extract w = .ok (r, b') := by
  unfold BitBuffer.extract
  rw [if_neg (by simp only [Config.maxW]; omega)]
  split <;> exact ⟨_, _, rfl⟩

theorem extract_error {b : BitBuffer} {w : Nat} {e : Status} (h : b.extract w = .error e) :
    16 < w ∧ e = .errIllegal := by
  unfold BitBuffer.extract at h
  split at h
  · cases h; exact ⟨by simpa using ‹_›, rfl⟩
  · split at h <;> cases h

theorem extract_inv {b b' : BitBuffer} {w : Nat} {r : Half} (h : b.extract w = .ok (r, b')) (hb : b.Inv) : b'.Inv := by
  obtain ⟨-, hs, hu, ⟨hle, -, hc⟩ | ⟨-, -, rfl⟩⟩ := extract_ok h
  · refine ⟨by rw [hc, hu]; exact hle, by rw [hu]; exact hb.2.1, fun i hi hui => ?_⟩
    rw [hs]; exact hb.2.2 i hi (by rw [← hu]; exact hui)
  · exact hb

/-! ### The written part as a string of bits -/

/-- The low `w` bits of a value, most significant first (20_memory.md R31). -/
def fieldBits (w : Nat) (v : Half) : List Bool := (List.range w).map fun j => v.getLsbD (w - 1 - j)

/-- A string of bits as a number, first bit most significant. -/
def numOf (l : List Bool) : Nat := natOfBits (fun j => l.getD j false) l.length

@[simp] theorem fieldBits_length (w : Nat) (v : Half) : (fieldBits w v).length = w := by simp [fieldBits]

@[simp] theorem bits_length (b : BitBuffer) : b.bits.length = b.used.toNat := by simp [BitBuffer.bits]

theorem bits_getElem (b : BitBuffer) (i : Nat) (h : i < b.bits.length) : b.bits[i] = bitAt b.store i := by
  simp [BitBuffer.bits]

theorem number_eq (b : BitBuffer) : b.number = numOf b.bits := by
  unfold BitBuffer.number bitRead numOf
  rw [bits_length]
  refine natOfBits_congr fun j hj => ?_
  rw [List.getD_eq_getElem _ _ (by simpa using hj), bits_getElem]
  simp

/-- ADDFIELD appends (30_encoding.md R63). -/
theorem addField_bits {b b' : BitBuffer} {w : Nat} {v : Half} (h : b.addField w v = .ok b') :
    b'.bits = b.bits ++ fieldBits w v := by
  obtain ⟨-, hr, hu, -, hs⟩ := addField_ok h
  apply List.ext_getElem
  · simp [hu]
  · intro i h1 h2
    simp only [bits_length, hu] at h1
    rw [bits_getElem, hs, List.getElem_append]
    by_cases c : i < b.used.toNat
    · simp [c, bits_getElem, show ¬ b.used.toNat ≤ i by omega]
    · simp [c, fieldBits, show b.used.toNat ≤ i by omega, h1]

/-- The number of a written field is the value cut to its width. -/
theorem numOf_fieldBits (w : Nat) (v : Half) : numOf (fieldBits w v) = v.toNat % 2 ^ w := by
  unfold numOf
  rw [fieldBits_length, ← natOfBits_testBits]
  refine natOfBits_congr fun j hj => ?_
  simp [fieldBits, List.getD_eq_getElem?_getD, hj, BitVec.getLsbD]

theorem numOf_append (l m : List Bool) : numOf (l ++ m) = numOf l * 2 ^ m.length + numOf m := by
  unfold numOf
  rw [List.length_append, natOfBits_add]
  congr 1
  · congr 1
    refine natOfBits_congr fun j hj => ?_
    rw [List.getD_append _ _ _ _ hj]
  · refine natOfBits_congr fun j hj => ?_
    rw [List.getD_append_right _ _ _ _ (by omega)]
    congr 1; omega

/-- What EXTRACT reads, as a piece of the written string. -/
theorem bitRead_eq_numOf {b : BitBuffer} {a w : Nat} (h : a + w ≤ b.used.toNat) :
    bitRead b.store a w = numOf ((b.bits.drop a).take w) := by
  unfold bitRead numOf
  have hl : ((b.bits.drop a).take w).length = w := by simp; omega
  rw [hl]
  refine natOfBits_congr fun j hj => ?_
  rw [List.getD_eq_getElem _ _ (by omega)]
  simp [BitBuffer.bits]

end Sys2Proof.Machine
end

