-- ==== Sys2Proof/Laws/Decode.lean ====
section
/-! SUPPORT. The command word and its fields. -/

namespace Sys2Proof

@[simp] theorem opField_packWord (op : BitVec 4) (w : WField) (v : Half) : opField (packWord op w v) = op := by
  apply BitVec.eq_of_getLsbD_eq
  intro i hi
  simp only [opField, packWord, BitVec.getLsbD_extractLsb', BitVec.getLsbD_append]
  simp only [show ¬ 28 + i < 16 by omega, show ¬ 28 + i - 16 < 5 by omega, show ¬ 28 + i - 16 - 5 < 7 by omega,
    show 28 + i - 16 - 5 - 7 = i by omega, hi, decide_true, Bool.true_and, if_false]

@[simp] theorem zField_packWord (op : BitVec 4) (w : WField) (v : Half) : zField (packWord op w v) = 0 := by
  apply BitVec.eq_of_getLsbD_eq
  intro i hi
  simp only [zField, packWord, BitVec.getLsbD_extractLsb', BitVec.getLsbD_append]
  simp [hi, show ¬ 21 + i < 16 by omega, show ¬ 21 + i - 16 < 5 by omega, show 21 + i - 16 - 5 < 7 by omega]

@[simp] theorem wField_packWord (op : BitVec 4) (w : WField) (v : Half) : wField (packWord op w v) = w := by
  apply BitVec.eq_of_getLsbD_eq
  intro i hi
  simp only [wField, packWord, BitVec.getLsbD_extractLsb', BitVec.getLsbD_append]
  simp [hi]

@[simp] theorem vField_packWord (op : BitVec 4) (w : WField) (v : Half) : vField (packWord op w v) = v := by
  apply BitVec.eq_of_getLsbD_eq
  intro i hi
  simp only [vField, packWord, BitVec.getLsbD_extractLsb', BitVec.getLsbD_append]
  simp [hi]

/-- A word is its four fields. -/
theorem packWord_fields (word : CmdWord) (h : zField word = 0) :
    packWord (opField word) (wField word) (vField word) = word := by
  apply BitVec.eq_of_getLsbD_eq
  intro i hi
  have hz : ∀ j < 7, word.getLsbD (21 + j) = false := by
    intro j hj
    have := congrArg (fun x => x.getLsbD j) h
    simpa [zField, hj] using this
  simp only [opField, wField, vField, packWord, BitVec.getLsbD_extractLsb', BitVec.getLsbD_append]
  by_cases h1 : i < 16
  · simp [h1]
  · by_cases h2 : i - 16 < 5
    · simp [h1, h2]; congr 1; omega
    · by_cases h3 : i - 16 - 5 < 7
      · have := hz (i - 16 - 5) h3
        simp [h1, h2, h3]
        rw [← this]; congr 1; omega
      · simp [h1, h2, h3, show i - 16 - 5 - 7 < 4 by omega]; congr 1; omega

end Sys2Proof
end

