-- ==== Sys2Proof/Laws/Septet.lean ====
section
/-! SUPPORT. The septet transcoder: what the two transforms give, bit by bit. -/

namespace Sys2Proof.Machine

/-! ### TOSEPTETS -/

theorem septet_toNat (b : BitBuffer) (k : Nat) :
    (b.septet k).toNat = natOfBits (fun j => decide (7 * k + j < b.used.toNat) && bitAt b.store (7 * k + j)) 7 := by
  have := natOfBits_lt (fun j => decide (7 * k + j < b.used.toNat) && bitAt b.store (7 * k + j)) 7
  rw [BitBuffer.septet, BitVec.toNat_ofNat, Nat.mod_eq_of_lt (by omega)]

theorem septet_lt (b : BitBuffer) (k : Nat) : (b.septet k).toNat < 128 := by
  rw [septet_toNat]; exact natOfBits_lt _ 7

/-- Bit `6-j` of byte `k` is `S[7k+j]`, or 0 at or beyond `U` (41_septet_ops.md R100). -/
theorem septet_bit (b : BitBuffer) (k j : Nat) (hj : j < 7) :
    (b.septet k).getLsbD (6 - j) = (decide (7 * k + j < b.used.toNat) && bitAt b.store (7 * k + j)) := by
  rw [BitVec.getLsbD, septet_toNat, natOfBits_testBit]
  simp [show 6 - j < 7 by omega, show 6 - (6 - j) = j by omega]

@[simp] theorem toSeptets_length (b : BitBuffer) : b.toSeptets.length = (b.used.toNat + 6) / 7 := by
  simp [BitBuffer.toSeptets, septetCount]

theorem toSeptets_getElem (b : BitBuffer) (k : Nat) (h : k < b.toSeptets.length) : b.toSeptets[k] = b.septet k := by
  simp [BitBuffer.toSeptets]

/-- Septet safety (41_septet_ops.md R101). -/
theorem toSeptets_lt (b : BitBuffer) : ∀ x ∈ b.toSeptets, x.toNat < 128 := by
  intro x hx
  obtain ⟨k, -, rfl⟩ := List.mem_map.mp hx
  exact septet_lt b k

/-! ### FROMSEPTETS -/

theorem bitAt_loadSeptets (S : Store) (k : Nat) (bytes : List Byte) (i : Nat) :
    bitAt (loadSeptets S k bytes) i =
      if 7 * k ≤ i ∧ i < 7 * (k + bytes.length) ∧ i < 128 then (bytes.getD (i / 7 - k) 0).getLsbD (6 - i % 7)
      else bitAt S i := by
  induction bytes generalizing S k with
  | nil => simp [loadSeptets]; intros; omega
  | cons x xs ih =>
    rw [loadSeptets, ih, bitAt_bitWrite]
    by_cases h1 : 7 * (k + 1) ≤ i ∧ i < 7 * (k + 1 + xs.length) ∧ i < 128
    · have h2 : 7 * k ≤ i ∧ i < 7 * (k + (x :: xs).length) ∧ i < 128 := by simp; omega
      rw [if_pos h1, if_pos h2, show i / 7 - k = (i / 7 - (k + 1)) + 1 by omega, List.getD_cons_succ]
    · rw [if_neg h1]
      by_cases h3 : 7 * k ≤ i ∧ i < 7 * k + 7 ∧ i < 128
      · have h2 : 7 * k ≤ i ∧ i < 7 * (k + (x :: xs).length) ∧ i < 128 := by simp; omega
        rw [if_pos h3, if_pos h2, show i / 7 - k = 0 by omega, List.getD_cons_zero]
        congr 1; omega
      · have h2 : ¬ (7 * k ≤ i ∧ i < 7 * (k + (x :: xs).length) ∧ i < 128) := by simp at h1 ⊢; omega
        rw [if_neg h3, if_neg h2]

/-- Everything a successful FROMSEPTETS does (41_septet_ops.md R104). -/
theorem fromSeptets_ok {b b' : BitBuffer} {bytes : List Byte} (h : b.fromSeptets bytes = .ok b') :
    7 * bytes.length ≤ 128 ∧ b'.used.toNat = 7 * bytes.length ∧ b'.cursor = 0 ∧
      ∀ i, bitAt b'.store i =
        if i < 7 * bytes.length then (bytes.getD (i / 7) 0).getLsbD (6 - i % 7) else false := by
  unfold BitBuffer.fromSeptets at h
  split at h
  · rename_i hl
    simp only [septetsFit, decide_eq_true_eq, Config.cap] at hl
    cases h
    refine ⟨hl, by simp only [BitVec.toNat_ofNat]; omega, rfl, fun i => ?_⟩
    have hz : bitAt zeroStore i = false := bitAt_zero i
    rw [bitAt_loadSeptets, hz]
    by_cases c : i < 7 * bytes.length
    · rw [if_pos (by omega), if_pos c]; rfl
    · rw [if_neg (by omega), if_neg c]
  · cases h

theorem fromSeptets_succeeds (b : BitBuffer) {bytes : List Byte} (h : 7 * bytes.length ≤ 128) :
    ∃ b', b.fromSeptets bytes = .ok b' := by
  simp [BitBuffer.fromSeptets, septetsFit, h]

theorem fromSeptets_error {b : BitBuffer} {bytes : List Byte} {e : Status} (h : b.fromSeptets bytes = .error e) :
    128 < 7 * bytes.length ∧ e = .errCapacity := by
  unfold BitBuffer.fromSeptets at h
  split at h
  · cases h
  · rename_i hl
    simp only [septetsFit, decide_eq_true_eq, Config.cap] at hl
    cases h
    exact ⟨by omega, rfl⟩

/-- FROMSEPTETS does not look at the old buffer (41_septet_ops.md R104, D11). -/
theorem fromSeptets_any (b c : BitBuffer) (bytes : List Byte) : b.fromSeptets bytes = c.fromSeptets bytes := rfl

theorem fromSeptets_inv {b b' : BitBuffer} {bytes : List Byte} (h : b.fromSeptets bytes = .ok b') : b'.Inv := by
  obtain ⟨hl, hu, hc, hs⟩ := fromSeptets_ok h
  refine ⟨by simp [hc], by omega, fun i _ hi => ?_⟩
  rw [hs, if_neg (by omega)]

/-- The bits of a septet stream (41_septet_ops.md R104). -/
def septetBits (bytes : List Byte) : List Bool :=
  (List.range (7 * bytes.length)).map fun i => (bytes.getD (i / 7) 0).getLsbD (6 - i % 7)

@[simp] theorem septetBits_length (bytes : List Byte) : (septetBits bytes).length = 7 * bytes.length := by
  simp [septetBits]

theorem fromSeptets_bits {b b' : BitBuffer} {bytes : List Byte} (h : b.fromSeptets bytes = .ok b') :
    b'.bits = septetBits bytes := by
  obtain ⟨-, hu, -, hs⟩ := fromSeptets_ok h
  apply List.ext_getElem
  · simp [hu]
  · intro i h1 h2
    simp only [bits_length, hu] at h1
    rw [bits_getElem, hs, if_pos h1]
    simp [septetBits]

/-- The stream TOSEPTETS gives carries the written part, and zeros to the end of the last septet
(41_septet_ops.md R108). -/
theorem septetBits_toSeptets (b : BitBuffer) :
    septetBits b.toSeptets = b.bits ++ List.replicate (7 * ((b.used.toNat + 6) / 7) - b.used.toNat) false := by
  apply List.ext_getElem
  · simp; omega
  · intro i h1 h2
    simp only [septetBits_length, toSeptets_length] at h1
    have hk : i / 7 < b.toSeptets.length := by rw [toSeptets_length]; omega
    simp only [septetBits, List.getElem_map, List.getElem_range]
    rw [List.getD_eq_getElem _ _ hk, toSeptets_getElem, septet_bit b _ _ (by omega),
      show 7 * (i / 7) + i % 7 = i by omega, List.getElem_append]
    by_cases c : i < b.used.toNat
    · simp [c, bits_getElem]
    · simp [c]

end Sys2Proof.Machine
end

