-- ==== Sys2Proof/Laws/Schema.lean ====
section
/-! SUPPORT. The walks over the configuration schema: what packing and unpacking a list of fields gives. -/

namespace Sys2Proof.Machine

/-! ### Registers, masks, widths -/

@[simp] theorem readRec_writeRec (r : Records) (i j : Fin 14) (v : Half) :
    readRec (writeRec r i v) j = if i = j then v else readRec r j := by
  simp [readRec, writeRec, Vector.getElem_set, Fin.ext_iff]

/-- Records with the same registers are the same. -/
theorem records_ext {r q : Records} (h : ∀ i, readRec r i = readRec q i) : r = q :=
  Vector.ext fun i hi => h ⟨i, hi⟩

theorem fieldWidth_le (i : Fin 14) : fieldWidth i ≤ 16 := by revert i; decide

/-- The widths are those of the spec's table (42_schema_codec.md R124). -/
theorem fieldWidth_eq (i : Fin 14) : fieldWidth i = specWidth i := by revert i; decide

theorem cfgBits_eq : cfgBits = 87 := by decide

theorem maskTo_toNat (w : Nat) (hw : w ≤ 16) (v : Half) : (maskTo w v).toNat = v.toNat % 2 ^ w := by
  have h1 : 2 ^ w ≤ 2 ^ 16 := Nat.pow_le_pow_right (by omega) hw
  have h2 : 0 < 2 ^ w := Nat.two_pow_pos w
  simp only [maskTo, BitVec.toNat_and, BitVec.toNat_ofNat]
  rw [Nat.mod_eq_of_lt (by omega), Nat.and_two_pow_sub_one_eq_mod]

/-- Masking a value before ADDFIELD changes nothing (42_schema_codec.md R126). -/
theorem fieldBits_maskTo (w : Nat) (hw : w ≤ 16) (v : Half) : fieldBits w (maskTo w v) = fieldBits w v := by
  apply List.ext_getElem
  · simp
  · intro j h1 h2
    simp only [fieldBits_length] at h1
    simp only [fieldBits, List.getElem_map, List.getElem_range, BitVec.getLsbD, maskTo_toNat w hw,
      Nat.testBit_mod_two_pow]
    simp [show w - 1 - j < w by omega]

/-! ### Packing -/

/-- The width of a list of fields. -/
def widthOf (is : List (Fin 14)) : Nat := (is.map fieldWidth).sum

@[simp] theorem widthOf_nil : widthOf [] = 0 := rfl

@[simp] theorem widthOf_cons (i : Fin 14) (is : List (Fin 14)) : widthOf (i :: is) = fieldWidth i + widthOf is := by
  simp [widthOf]

/-- The bits of a list of fields, laid end to end (30_encoding.md R63). -/
def recordBits (r : Records) (is : List (Fin 14)) : List Bool :=
  is.flatMap fun i => fieldBits (fieldWidth i) (readRec r i)

@[simp] theorem recordBits_length (r : Records) (is : List (Fin 14)) : (recordBits r is).length = widthOf is := by
  simp [recordBits, widthOf]

/-- Everything a successful pack does. -/
theorem packRecord_ok {r : Records} {is : List (Fin 14)} {b b' : BitBuffer} (h : packRecord r is b = .ok b') :
    b'.bits = b.bits ++ recordBits r is ∧ b'.used.toNat = b.used.toNat + widthOf is ∧ b'.cursor = b.cursor ∧
      (b.Inv → b'.Inv) := by
  induction is generalizing b with
  | nil => cases h; simp [recordBits]
  | cons i is ih =>
    rw [packRecord] at h
    split at h
    · rename_i b1 h1
      obtain ⟨hb, hu, hc, hi⟩ := ih h
      obtain ⟨-, -, hu1, hc1, -⟩ := addField_ok h1
      refine ⟨?_, by rw [hu, hu1, widthOf_cons]; omega, by rw [hc, hc1], fun hI => hi (addField_inv h1 hI)⟩
      rw [hb, addField_bits h1, fieldBits_maskTo _ (fieldWidth_le i)]
      simp [recordBits]
    · cases h

/-- When a pack succeeds (42_schema_codec.md R135). -/
theorem packRecord_succeeds (r : Records) (is : List (Fin 14)) (b : BitBuffer) (h : b.used.toNat + widthOf is ≤ 128) :
    ∃ b', packRecord r is b = .ok b' := by
  induction is generalizing b with
  | nil => exact ⟨b, rfl⟩
  | cons i is ih =>
    rw [widthOf_cons] at h
    obtain ⟨b1, h1⟩ := addField_succeeds (b := b) (maskTo (fieldWidth i) (readRec r i)) (fieldWidth_le i) (by omega)
    obtain ⟨-, -, hu1, -, -⟩ := addField_ok h1
    obtain ⟨b2, h2⟩ := ih b1 (by omega)
    exact ⟨b2, by rw [packRecord, h1]; exact h2⟩

/-! ### Unpacking -/

/-- EXTRACT where the bits are there. -/
theorem extract_fits {b : BitBuffer} {w : Nat} (hw : w ≤ 16) (h : b.cursor.toNat + w ≤ b.used.toNat) :
    b.extract w = .ok (BitVec.ofNat 16 (bitRead b.store b.cursor.toNat w),
      { b with cursor := BitVec.ofNat 8 (b.cursor.toNat + w) }) := by
  simp [BitBuffer.extract, BitBuffer.hasBits, h, Nat.not_lt.mpr hw]

/-- EXTRACT where they are not. -/
theorem extract_short {b : BitBuffer} {w : Nat} (hw : w ≤ 16) (h : b.used.toNat < b.cursor.toNat + w) :
    b.extract w = .ok (0, b) := by
  simp [BitBuffer.extract, BitBuffer.hasBits, Nat.not_le.mpr h, Nat.not_lt.mpr hw]

/-- An unpack fails on no payload (42_schema_codec.md R131), leaves the store and `U` alone, keeps the invariant, and writes
no register outside its list. -/
theorem unpackRecord_total (is : List (Fin 14)) (b : BitBuffer) (r : Records) :
    ∃ r' b', unpackRecord is b r = .ok (r', b') ∧ b'.store = b.store ∧ b'.used = b.used ∧ (b.Inv → b'.Inv) ∧
      ∀ j, j ∉ is → readRec r' j = readRec r j := by
  induction is generalizing b r with
  | nil => exact ⟨r, b, rfl, rfl, rfl, id, fun _ _ => rfl⟩
  | cons i is ih =>
    obtain ⟨v, b1, h1⟩ := extract_succeeds (b := b) (fieldWidth_le i)
    obtain ⟨-, hs, hu, -⟩ := extract_ok h1
    obtain ⟨r', b', h2, hs', hu', hi', hr'⟩ := ih b1 (writeRec r i v)
    refine ⟨r', b', by rw [unpackRecord, h1]; exact h2, by rw [hs', hs], by rw [hu', hu],
      fun h => hi' (extract_inv h1 h), fun j hj => ?_⟩
    rw [hr' j (by simp_all), readRec_writeRec, if_neg (by rintro rfl; simp at hj)]

/-- What an unpack writes when the buffer holds the bits of all its fields. -/
theorem unpackRecord_fits (is : List (Fin 14)) (b : BitBuffer) (r : Records) (hn : is.Nodup)
    (h : b.cursor.toNat + widthOf is ≤ b.used.toNat) :
    ∃ r' b', unpackRecord is b r = .ok (r', b') ∧ b'.cursor.toNat = b.cursor.toNat + widthOf is ∧
      ∀ k (hk : k < is.length), (readRec r' is[k]).toNat =
        bitRead b.store (b.cursor.toNat + widthOf (is.take k)) (fieldWidth is[k]) := by
  induction is generalizing b r with
  | nil => exact ⟨r, b, rfl, rfl, fun k hk => by simp at hk⟩
  | cons i is ih =>
    rw [widthOf_cons] at h
    have h1 := extract_fits (b := b) (fieldWidth_le i) (by omega)
    obtain ⟨-, hs, hu, ⟨-, hv, hc⟩ | ⟨hlt, -, -⟩⟩ := extract_ok h1
    · obtain ⟨r', b', h2, hc', hr'⟩ := ih _ (writeRec r i _) (List.nodup_cons.mp hn).2 (by rw [hc, hu]; omega)
      obtain ⟨r'', b'', h3, -, -, -, ho⟩ := unpackRecord_total is { b with cursor := BitVec.ofNat 8 (b.cursor.toNat + fieldWidth i) }
        (writeRec r i (BitVec.ofNat 16 (bitRead b.store b.cursor.toNat (fieldWidth i))))
      have e := h2.symm.trans h3
      injection e with e; injection e with e1 e2; subst e1; subst e2
      refine ⟨r', b', by rw [unpackRecord, h1]; exact h2, by rw [hc', hc, widthOf_cons]; omega, fun k hk => ?_⟩
      cases k with
      | zero =>
        simp only [List.getElem_cons_zero, List.take_zero, widthOf_nil, Nat.add_zero]
        rw [ho i (List.nodup_cons.mp hn).1, readRec_writeRec, if_pos rfl, hv]
      | succ k =>
        simp only [List.getElem_cons_succ, List.take_succ_cons, widthOf_cons]
        rw [hr' k (by simpa using hk), hc]
        congr 1; omega
    · omega

/-- Where each field of a list is read when `u` bits are written and the cursor stands at `c`: at a bit of the store, or nowhere
when it underflows (42_schema_codec.md R131). -/
def places (u : Nat) : List (Fin 14) → Nat → List (Fin 14 × Option Nat)
  | [], _ => []
  | i :: is, c =>
    if c + fieldWidth i ≤ u then (i, some c) :: places u is (c + fieldWidth i) else (i, none) :: places u is c

/-- Where the cursor stands after that. -/
def walkEnd (u : Nat) : List (Fin 14) → Nat → Nat
  | [], c => c
  | i :: is, c => if c + fieldWidth i ≤ u then walkEnd u is (c + fieldWidth i) else walkEnd u is c

theorem mem_places {u : Nat} {is : List (Fin 14)} {c : Nat} {p : Fin 14 × Option Nat} (h : p ∈ places u is c) :
    p.1 ∈ is := by
  induction is generalizing c with
  | nil => simp [places] at h
  | cons i is ih =>
    unfold places at h
    split at h <;> rcases List.mem_cons.mp h with rfl | h <;> simp
    all_goals exact .inr (ih h)

/-- What an unpack writes, whatever the buffer holds. -/
theorem unpackRecord_places (is : List (Fin 14)) (b : BitBuffer) (r : Records) (hn : is.Nodup) :
    ∃ r' b', unpackRecord is b r = .ok (r', b') ∧ b'.store = b.store ∧ b'.used = b.used ∧
      b'.cursor.toNat = walkEnd b.used.toNat is b.cursor.toNat ∧
      ∀ p ∈ places b.used.toNat is b.cursor.toNat,
        (readRec r' p.1).toNat = (p.2.elim 0 fun a => bitRead b.store a (fieldWidth p.1)) := by
  induction is generalizing b r with
  | nil => exact ⟨r, b, rfl, rfl, rfl, rfl, by simp [places]⟩
  | cons i is ih =>
    obtain ⟨v, b1, h1⟩ := extract_succeeds (b := b) (fieldWidth_le i)
    obtain ⟨r', b', h2, h3, h4, h5, h6⟩ := ih b1 (writeRec r i v) (List.nodup_cons.mp hn).2
    obtain ⟨r'', b'', g, -, -, -, ho⟩ := unpackRecord_total is b1 (writeRec r i v)
    rw [h2] at g
    cases g
    have hi : readRec r' i = v := by rw [ho i (List.nodup_cons.mp hn).1, readRec_writeRec, if_pos rfl]
    refine ⟨r', b', by rw [unpackRecord, h1]; exact h2, ?_⟩
    obtain ⟨-, hs, hu, ⟨hle, hv, hc⟩ | ⟨hlt, hv, rfl⟩⟩ := extract_ok h1
    · rw [hu, hc] at h5 h6
      refine ⟨by rw [h3, hs], by rw [h4, hu], by rw [h5, walkEnd, if_pos hle], fun p hp => ?_⟩
      rw [places, if_pos hle] at hp
      rcases List.mem_cons.mp hp with rfl | hp
      · simp [hi, hv]
      · rw [h6 p hp, hs]
    · have hle : ¬ b1.cursor.toNat + fieldWidth i ≤ b1.used.toNat := by omega
      refine ⟨h3, h4, by rw [h5, walkEnd, if_neg hle], fun p hp => ?_⟩
      rw [places, if_neg hle] at hp
      rcases List.mem_cons.mp hp with rfl | hp
      · simp [hi, hv]
      · exact h6 p hp

end Sys2Proof.Machine
end

