-- ==== Sys2Proof/Laws/Exec.lean ====
section
/-! SUPPORT. What a command can do, said once for all commands: it waits for its payload, or it ends with one response. -/

namespace Sys2Proof.Machine

/-! ### Operands -/

theorem splitBytes_eq (n : Nat) (taken rest : List Byte) :
    splitBytes n taken rest = if n ≤ rest.length then some (taken.reverse ++ rest.take n, rest.drop n) else none := by
  induction n generalizing taken rest with
  | zero => simp [splitBytes]
  | succ n ih =>
    cases rest with
    | nil => simp [splitBytes]
    | cons b rest => simp [splitBytes, ih]

/-- A payload that is there is taken. -/
theorem withPayload_ready {i : Instr} {n : Half} {s : State} {k} (h : n.toNat ≤ s.din.length) :
    withPayload i n s k = k (s.din.take n.toNat) { s with din := s.din.drop n.toNat } := by
  simp [withPayload, splitBytes_eq, h]

/-- A payload that is not there is waited for. -/
theorem withPayload_short {i : Instr} {n : Half} {s : State} {k} (h : s.din.length < n.toNat) :
    withPayload i n s k = .next { s with busy := some i } := by
  simp [withPayload, splitBytes_eq, Nat.not_le.mpr h, goOn]

/-- A payload that stands first on the channel is the one that is taken. -/
theorem withPayload_append {i : Instr} {n : Half} {s : State} {k} {payload rest : List Byte} (hd : s.din = payload ++ rest)
    (hl : payload.length = n.toNat) : withPayload i n s k = k payload { s with din := rest } := by
  rw [withPayload_ready (by rw [hd, ← hl]; simp)]
  simp [hd, ← hl]

theorem regOperand_eq {i : WField} (h : i.toNat < 14) : regOperand i = some ⟨i.toNat, h⟩ := by simp [regOperand, h]

theorem regOperand_none {i : WField} (h : 14 ≤ i.toNat) : regOperand i = none := by
  simp [regOperand, Nat.not_lt.mpr h]

/-! ### The payload commands, one lemma each -/

/-- FROMSEPTETS with its payload at hand (41_septet_ops.md R104). -/
theorem exec_fromSeptets {n : Half} {s : State} {payload rest : List Byte} (hd : s.din = payload ++ rest)
    (hl : payload.length = n.toNat) {b : BitBuffer} (hb : s.buf.fromSeptets payload = .ok b) :
    exec (.fromSeptets n) s = .next ((({ s with din := rest } : State).withBuf b).respond .ok 0 []) := by
  simp only [exec, execFromSeptets, withPayload_append hd hl, hb, goOn]

/-- FROMSEPTETS with too many bytes (41_septet_ops.md R104). -/
theorem exec_fromSeptets_long {n : Half} {s : State} {payload rest : List Byte} (hd : s.din = payload ++ rest)
    (hl : payload.length = n.toNat) (hn : 128 < 7 * n.toNat) :
    exec (.fromSeptets n) s = .next (({ s with din := rest } : State).fail .errCapacity) := by
  simp only [exec, execFromSeptets, withPayload_append hd hl]
  cases h : s.buf.fromSeptets payload with
  | ok b => have := (fromSeptets_ok h).1; omega
  | error e => rw [(fromSeptets_error h).2]

/-- DECCFG with its payload at hand (42_schema_codec.md R127). -/
theorem exec_decCfg {n : Half} {s : State} {payload rest : List Byte} (hd : s.din = payload ++ rest)
    (hl : payload.length = n.toNat) {b b' : BitBuffer} {r : Records} (hb : s.buf.clear.fromSeptets payload = .ok b)
    (hr : unpackRecord (List.finRange 14) b s.recs = .ok (r, b')) :
    exec (.decCfg n) s =
      .next (((({ s with din := rest } : State).withBuf b').withRecs r).respond .ok 0 []) := by
  have hf : septetsFit payload.length = true := by simpa [septetsFit] using (fromSeptets_ok hb).1
  simp only [exec, execDecCfg, withPayload_append hd hl, hf, if_true, hb, hr, goOn]

/-- DECVER with its payload at hand (42_schema_codec.md R129). -/
theorem exec_decVer {n : Half} {s : State} {payload rest : List Byte} (hd : s.din = payload ++ rest)
    (hl : payload.length = n.toNat) {b b' : BitBuffer} {r : Half} (hb : s.buf.clear.fromSeptets payload = .ok b)
    (hr : b.extract 16 = .ok (r, b')) :
    exec (.decVer n) s = .next ((({ s with din := rest } : State).withBuf b').respond .ok r []) := by
  have hf : septetsFit payload.length = true := by simpa [septetsFit] using (fromSeptets_ok hb).1
  have hv : verBits = 16 := rfl
  simp only [exec, execDecVer, withPayload_append hd hl, hf, if_true, hb, hv, hr, goOn]

/-- DECCFG and DECVER with too many bytes (60_exceptions.md R153). -/
theorem exec_decode_long {n : Half} {s : State} {payload rest : List Byte} (hd : s.din = payload ++ rest)
    (hl : payload.length = n.toNat) (hn : 128 < 7 * n.toNat) :
    exec (.decCfg n) s = .next (({ s with din := rest } : State).fail .errMalformed) ∧
      exec (.decVer n) s = .next (({ s with din := rest } : State).fail .errMalformed) := by
  have hf : septetsFit payload.length = false := by simp [septetsFit, Config.cap]; omega
  constructor <;>
    simp only [exec, execDecCfg, execDecVer, withPayload_append hd hl, hf, Bool.false_eq_true, if_false, goOn]

/-- ENCCFG: the pack of all 14 fields succeeds (42_schema_codec.md R126, R135). -/
theorem exec_encCfg (s : State) :
    ∃ b, exec .encCfg s = .next ((s.withBuf b).respond .ok 0 b.toSeptets) ∧
      packRecord s.recs (List.finRange 14) s.buf.clear = .ok b := by
  obtain ⟨b, hb⟩ := packRecord_succeeds s.recs (List.finRange 14) s.buf.clear (by simp; decide)
  have hf : schemaFits cfgBits = true := by decide
  exact ⟨b, by simp only [exec, execEncCfg, hf, if_true, hb, goOn], hb⟩

/-- ENCVER: the pack of the one field succeeds (42_schema_codec.md R128, R135). -/
theorem exec_encVer (v : Half) (s : State) :
    ∃ b, exec (.encVer v) s = .next ((s.withBuf b).respond .ok 0 b.toSeptets) ∧ s.buf.clear.addField 16 v = .ok b := by
  obtain ⟨b, hb⟩ := addField_succeeds (b := s.buf.clear) (w := 16) v (by omega) (by simp)
  have hf : schemaFits verBits = true := by decide
  have hv : verBits = 16 := rfl
  exact ⟨b, by rw [hv] at hf; simp only [exec, execEncVer, hv, hf, if_true, hb, goOn], hb⟩

/-! ### Every command -/

/-- From `s` to `t` the command `i` ended: one response, its payload taken, no effect unless the status is `OK`, the buffer's
invariant kept, the payload out septets. -/
def Ended (i : Instr) (s t : State) : Prop :=
  ∃ st res out, t.responses = s.responses ++ [⟨st, res, out⟩] ∧ t.busy = none ∧ t.host = s.host ∧
    t.din = s.din.drop (payloadCount i) ∧ (st ≠ .ok → t.buf = s.buf ∧ t.recs = s.recs ∧ res = 0 ∧ out = []) ∧
    (s.buf.Inv → t.buf.Inv) ∧ (∀ x ∈ out, x.toNat < 128) ∧ (s.buf.Inv → out.length ≤ 19)

/-- A failing command has ended. -/
theorem ended_fail (i : Instr) (s : State) (rest : List Byte) (st : Status)
    (hd : rest = s.din.drop (payloadCount i)) : Ended i s (({ s with din := rest } : State).fail st) :=
  ⟨st, 0, [], rfl, rfl, rfl, hd, fun _ => ⟨rfl, rfl, rfl, rfl⟩, id, by simp, by simp⟩

/-- A command that ends `OK` has ended, whatever buffer and registers it leaves, if the invariant is kept and the payload out
consists of septets. -/
theorem ended_ok (i : Instr) (s : State) (rest : List Byte) (b : BitBuffer) (r : Records) (res : Half) (out : List Byte)
    (hd : rest = s.din.drop (payloadCount i)) (hb : s.buf.Inv → b.Inv) (ho : ∀ x ∈ out, x.toNat < 128)
    (hl : s.buf.Inv → out.length ≤ 19) :
    Ended i s (((({ s with din := rest } : State).withBuf b).withRecs r).respond .ok res out) :=
  ⟨.ok, res, out, rfl, rfl, rfl, hd, fun h => absurd rfl h, hb, ho, hl⟩

theorem septets_length_le {b : BitBuffer} (h : b.Inv) : b.toSeptets.length ≤ 19 := by
  rw [toSeptets_length]; have := h.2.1; omega

/-- What DECCFG and DECVER do once their bytes are there, `f` being what follows the FROMSEPTETS of the expansion: they end. -/
theorem ended_decode {i : Instr} {s : State} {rest : List Byte} {bytes : List Byte}
    {f : BitBuffer → State → Host.Outcome State Fault Refusal}
    (hd : rest = s.din.drop (payloadCount i))
    (hf : ∀ b : BitBuffer, b.Inv → ∃ t, f b { s with din := rest } = .next t ∧ Ended i s t) :
    ∃ t, (if septetsFit bytes.length then
        match s.buf.clear.fromSeptets bytes with
        | .ok b => f b { s with din := rest }
        | .error e => goOn (({ s with din := rest } : State).fail e)
      else goOn (({ s with din := rest } : State).fail .errMalformed)) = .next t ∧ Ended i s t := by
  split
  · split
    · rename_i b hb
      exact hf b (fromSeptets_inv hb)
    · exact ⟨_, rfl, ended_fail i s rest _ hd⟩
  · exact ⟨_, rfl, ended_fail i s rest _ hd⟩

/-- The one lemma about all commands: a command answers a next state, in which it waits for its payload or has ended. -/
theorem exec_cases (i : Instr) (s : State) :
    ∃ t, exec i s = .next t ∧
      ((s.din.length < payloadCount i ∧ i.wf = true ∧ t = { s with busy := some i }) ∨
        (payloadCount i ≤ s.din.length ∧ Ended i s t)) := by
  cases i with
  | clear =>
    exact ⟨_, rfl, .inr ⟨Nat.zero_le _, ended_ok .clear s s.din s.buf.clear s.recs 0 [] rfl (fun _ => clear_inv _)
      (by simp) (by simp)⟩⟩
  | addField w v =>
    simp only [exec, execAddField]
    split
    · rename_i b hb
      exact ⟨_, rfl, .inr ⟨Nat.zero_le _, ended_ok (.addField w v) s s.din b s.recs 0 [] rfl (addField_inv hb)
        (by simp) (by simp)⟩⟩
    · exact ⟨_, rfl, .inr ⟨Nat.zero_le _, ended_fail (.addField w v) s s.din _ rfl⟩⟩
  | extract w =>
    simp only [exec, execExtract]
    split
    · rename_i r b hb
      exact ⟨_, rfl, .inr ⟨Nat.zero_le _, ended_ok (.extract w) s s.din b s.recs r [] rfl (extract_inv hb)
        (by simp) (by simp)⟩⟩
    · exact ⟨_, rfl, .inr ⟨Nat.zero_le _, ended_fail (.extract w) s s.din _ rfl⟩⟩
  | toSeptets =>
    exact ⟨_, rfl, .inr ⟨Nat.zero_le _, ended_ok .toSeptets s s.din s.buf s.recs 0 _ rfl id (toSeptets_lt _)
      septets_length_le⟩⟩
  | fromSeptets n =>
    by_cases h : n.toNat ≤ s.din.length
    · simp only [exec, execFromSeptets, withPayload_ready h]
      split
      · rename_i b hb
        exact ⟨_, rfl, .inr ⟨h, ended_ok (.fromSeptets n) s _ b s.recs 0 [] rfl (fun _ => fromSeptets_inv hb)
          (by simp) (by simp)⟩⟩
      · exact ⟨_, rfl, .inr ⟨h, ended_fail (.fromSeptets n) s _ _ rfl⟩⟩
    · simp only [exec, execFromSeptets, withPayload_short (Nat.not_le.mp h)]
      exact ⟨_, rfl, .inl ⟨Nat.not_le.mp h, rfl, rfl⟩⟩
  | setRec r v =>
    simp only [exec, execSetRec]
    split
    · rename_i i hi
      exact ⟨_, rfl, .inr ⟨Nat.zero_le _, ended_ok (.setRec r v) s s.din s.buf (writeRec s.recs i v) 0 [] rfl id
        (by simp) (by simp)⟩⟩
    · exact ⟨_, rfl, .inr ⟨Nat.zero_le _, ended_fail (.setRec r v) s s.din _ rfl⟩⟩
  | getRec r =>
    simp only [exec, execGetRec]
    split
    · rename_i i hi
      exact ⟨_, rfl, .inr ⟨Nat.zero_le _, ended_ok (.getRec r) s s.din s.buf s.recs _ [] rfl id (by simp) (by simp)⟩⟩
    · exact ⟨_, rfl, .inr ⟨Nat.zero_le _, ended_fail (.getRec r) s s.din _ rfl⟩⟩
  | encCfg =>
    simp only [exec, execEncCfg]
    split
    · split
      · rename_i b hb
        have hi := (packRecord_ok hb).2.2.2 (clear_inv _)
        exact ⟨_, rfl, .inr ⟨Nat.zero_le _, ended_ok .encCfg s s.din b s.recs 0 _ rfl (fun _ => hi) (toSeptets_lt _)
          (fun _ => septets_length_le hi)⟩⟩
      · exact ⟨_, rfl, .inr ⟨Nat.zero_le _, ended_fail .encCfg s s.din _ rfl⟩⟩
    · exact ⟨_, rfl, .inr ⟨Nat.zero_le _, ended_fail .encCfg s s.din _ rfl⟩⟩
  | decCfg n =>
    by_cases h : n.toNat ≤ s.din.length
    · simp only [exec, execDecCfg, withPayload_ready h]
      obtain ⟨t, ht, he⟩ := ended_decode (i := .decCfg n) (s := s) (bytes := s.din.take n.toNat)
        (f := fun b s => match unpackRecord (List.finRange 14) b s.recs with
          | .ok (r, b) => goOn (((s.withBuf b).withRecs r).respond .ok 0 [])
          | .error e => goOn (s.fail e)) rfl (fun b hb => by
            obtain ⟨r', b', hu, -, -, hi, -⟩ := unpackRecord_total (List.finRange 14) b s.recs
            simp only [hu]
            exact ⟨_, rfl, ended_ok (.decCfg n) s _ b' r' 0 [] rfl (fun _ => hi hb) (by simp) (by simp)⟩)
      exact ⟨t, ht, .inr ⟨h, he⟩⟩
    · simp only [exec, execDecCfg, withPayload_short (Nat.not_le.mp h)]
      exact ⟨_, rfl, .inl ⟨Nat.not_le.mp h, rfl, rfl⟩⟩
  | encVer v =>
    simp only [exec, execEncVer]
    split
    · split
      · rename_i b hb
        have hi := addField_inv hb (clear_inv _)
        exact ⟨_, rfl, .inr ⟨Nat.zero_le _, ended_ok (.encVer v) s s.din b s.recs 0 _ rfl (fun _ => hi) (toSeptets_lt _)
          (fun _ => septets_length_le hi)⟩⟩
      · exact ⟨_, rfl, .inr ⟨Nat.zero_le _, ended_fail (.encVer v) s s.din _ rfl⟩⟩
    · exact ⟨_, rfl, .inr ⟨Nat.zero_le _, ended_fail (.encVer v) s s.din _ rfl⟩⟩
  | decVer n =>
    by_cases h : n.toNat ≤ s.din.length
    · simp only [exec, execDecVer, withPayload_ready h]
      obtain ⟨t, ht, he⟩ := ended_decode (i := .decVer n) (s := s) (bytes := s.din.take n.toNat)
        (f := fun b s => match b.extract verBits with
          | .ok (r, b) => goOn ((s.withBuf b).respond .ok r [])
          | .error e => goOn (s.fail e)) rfl (fun b hb => by
            obtain ⟨r', b', hx⟩ := extract_succeeds (b := b) (w := verBits) (by decide)
            simp only [hx]
            exact ⟨_, rfl, ended_ok (.decVer n) s _ b' s.recs r' [] rfl (fun _ => extract_inv hx hb) (by simp) (by simp)⟩)
      exact ⟨t, ht, .inr ⟨h, he⟩⟩
    · simp only [exec, execDecVer, withPayload_short (Nat.not_le.mp h)]
      exact ⟨_, rfl, .inl ⟨Nat.not_le.mp h, rfl, rfl⟩⟩

end Sys2Proof.Machine
end

