-- ==== Sys2Proof/Laws/PerInstr.lean ====
section
/-! SUPPORT. A fact about each command as syntax: its word carries the opcode of its row (30_encoding.md R52), and its `z` field is
zero (R51). -/

namespace Sys2Proof

/-- The opcode of each row (30_encoding.md R52). -/
def Laws.opcodeOf : Instr → BitVec 4
  | .clear => 0x1
  | .addField _ _ => 0x2
  | .extract _ => 0x3
  | .toSeptets => 0x4
  | .fromSeptets _ => 0x5
  | .setRec _ _ => 0x6
  | .getRec _ => 0x7
  | .encCfg => 0x8
  | .decCfg _ => 0x9
  | .encVer _ => 0xA
  | .decVer _ => 0xB

/-- The word of `i` has its row's opcode and a zero `z` field. -/
def Laws.WordHeader.Statement (i : Instr) : Prop := opField (encode i) = Laws.opcodeOf i ∧ zField (encode i) = 0

namespace Laws.WordHeader

theorem clear : Statement .clear := by simp [Statement, encode, opcodeOf]

theorem addField (w : WField) (v : Half) : Statement (.addField w v) := by simp [Statement, encode, opcodeOf]

theorem extract (w : WField) : Statement (.extract w) := by simp [Statement, encode, opcodeOf]

theorem toSeptets : Statement .toSeptets := by simp [Statement, encode, opcodeOf]

theorem fromSeptets (n : Half) : Statement (.fromSeptets n) := by simp [Statement, encode, opcodeOf]

theorem setRec (i : WField) (v : Half) : Statement (.setRec i v) := by simp [Statement, encode, opcodeOf]

theorem getRec (i : WField) : Statement (.getRec i) := by simp [Statement, encode, opcodeOf]

theorem encCfg : Statement .encCfg := by simp [Statement, encode, opcodeOf]

theorem decCfg (n : Half) : Statement (.decCfg n) := by simp [Statement, encode, opcodeOf]

theorem encVer (v : Half) : Statement (.encVer v) := by simp [Statement, encode, opcodeOf]

theorem decVer (n : Half) : Statement (.decVer n) := by simp [Statement, encode, opcodeOf]

end Laws.WordHeader

end Sys2Proof
end

