-- ==== Sys2Proof/Laws/Wpm.lean ====
section
/-! SUPPORT. What the host's conversion of `wpm` can do: it refuses a negative value and stores any other. -/

namespace Sys2Proof.Machine

theorem wpmToRecord_neg (ρ : Rounding) {wpm : ℝ} (h : wpm < 0) : wpmToRecord ρ wpm = none := by
  simp [wpmToRecord, not_le.mpr h]

theorem wpmToRecord_nonneg (ρ : Rounding) {wpm : ℝ} (h : 0 ≤ wpm) :
    wpmToRecord ρ wpm = some (BitVec.ofNat 16 (ρ.round100 wpm)) := by
  simp [wpmToRecord, h]

end Sys2Proof.Machine
end

