-- ==== Sys2Proof/Machine/Assembler.lean ====
section
/-! DEFINITION. The assembler of 30_encoding.md R61: one line of text to one command word with its payload. It stands outside the
block, which never sees text. There are no pseudo-instructions (R62). -/

namespace Sys2Proof.Machine

/-! ### Text -/

/-- `;` starts a comment (30_encoding.md R61). -/
def stripComment (line : List Char) : List Char := line.takeWhile (· ≠ ';')

/-- The words of a line: blanks part them, a comma is a word of its own. -/
def lineWords : List Char → List Char → List (List Char)
  | [], cur => if cur.isEmpty then [] else [cur.reverse]
  | c :: cs, cur =>
    let done := if cur.isEmpty then [] else [cur.reverse]
    if c = ' ' ∨ c = '\t' then done ++ lineWords cs []
    else if c = ',' then done ++ [','] :: lineWords cs []
    else lineWords cs (c :: cur)

/-- The value of a digit, if `c` is a digit in this base. -/
def digitValue (base : Nat) (c : Char) : Option Nat :=
  let d :=
    if '0' ≤ c ∧ c ≤ '9' then c.toNat - '0'.toNat
    else if 'a' ≤ c ∧ c ≤ 'f' then c.toNat - 'a'.toNat + 10
    else if 'A' ≤ c ∧ c ≤ 'F' then c.toNat - 'A'.toNat + 10
    else base
  if d < base then some d else none

/-- Digits, most significant first. -/
def digitsValue (base : Nat) : List Char → Nat → Option Nat
  | [], acc => some acc
  | c :: cs, acc => (digitValue base c).bind fun d => digitsValue base cs (acc * base + d)

/-- A number: hexadecimal after `0x`, otherwise in the base `plain`. -/
def numberWord (plain : Nat) : List Char → Option Nat
  | [] => none
  | ['0', 'x'] => none
  | '0' :: 'x' :: cs => digitsValue 16 cs 0
  | cs => digitsValue plain cs 0

/-- A number that fits `n` bits, written in the base `plain` if it has no `0x` (log entry 15). -/
def numberField (plain n : Nat) (word : List Char) : Option (BitVec n) :=
  (numberWord plain word).bind fun x => if x < 2 ^ n then some (BitVec.ofNat n x) else none

/-- An operand of the command word: a number, decimal or `0x` hexadecimal (30_encoding.md R61), that fits its field. -/
def fieldWord (n : Nat) (word : List Char) : Option (BitVec n) := numberField 10 n word

/-- A payload byte: hexadecimal, with `0x` or without. DESIGN CHOICE (log entry 16): 30_encoding.md R61 has numbers decimal or `0x`,
but every payload that spec/ writes without `0x` is hexadecimal (42_schema_codec.md R127 and R129, 95_test_vectors.md). -/
def byteWord (word : List Char) : Option Byte := numberField 16 8 word

/-- The alias of a record register, the name of its field (10_state.md R18). -/
def fieldAlias : FieldName → String
  | .keyMode => "keyMode"
  | .pinMode => "pinMode"
  | .ledMode => "ledMode"
  | .gpioOutputMode => "gpioOutputMode"
  | .output => "output"
  | .normalLED => "normalLED"
  | .rgbLED => "rgbLED"
  | .ditPaddle => "ditPaddle"
  | .dahPaddle => "dahPaddle"
  | .straightKey => "straightKey"
  | .wpm100 => "wpm100"
  | .channel => "channel"
  | .note => "note"
  | .volume => "volume"
  | .version => "version"

/-- A register: a number or an alias (30_encoding.md R61). A number beyond 13 gives the illegal word, as in vector V51b. -/
def registerWord (word : List Char) : Option WField :=
  match (List.finRange 14).find? fun i => (fieldAlias configSchema[i.val].1).toList == word with
  | some i => some (BitVec.ofNat 5 i.val)
  | none => fieldWord 5 word

/-- Payload bytes, each read by `byteWord` (DESIGN CHOICE on their base: log entry 16). -/
def byteWords : List (List Char) → Option (List Byte)
  | [] => some []
  | w :: ws => (byteWord w).bind fun b => (byteWords ws).map (b :: ·)

/-! ### Lines -/

/-- A payload command: the assembler sets `v` to the count of the bytes written after the mnemonic (30_encoding.md R61). -/
def payloadLine (mk : Half → Instr) (words : List (List Char)) : Option (Instr × List Byte) :=
  (byteWords words).bind fun bytes =>
    if bytes.length < 2 ^ 16 then some (mk (BitVec.ofNat 16 bytes.length), bytes) else none

/-- The command and the payload that a line's mnemonic and operands stand for (30_encoding.md R61). -/
def lineCommand (mnemonic : String) (operands : List (List Char)) : Option (Instr × List Byte) :=
  match mnemonic, operands with
  | "CLEAR", [] => some (.clear, [])
  | "ADDFIELD", [w, [','], v] => (fieldWord 5 w).bind fun w => (fieldWord 16 v).map fun v => (.addField w v, [])
  | "EXTRACT", [w] => (fieldWord 5 w).map fun w => (.extract w, [])
  | "TOSEPTETS", [] => some (.toSeptets, [])
  | "FROMSEPTETS", bytes => payloadLine .fromSeptets bytes
  | "SETREC", [r, [','], v] => (registerWord r).bind fun r => (fieldWord 16 v).map fun v => (.setRec r v, [])
  | "GETREC", [r] => (registerWord r).map fun r => (.getRec r, [])
  | "ENCCFG", [] => some (.encCfg, [])
  | "DECCFG", bytes => payloadLine .decCfg bytes
  | "ENCVER", [v] => (fieldWord 16 v).map fun v => (.encVer v, [])
  | "DECVER", bytes => payloadLine .decVer bytes
  | _, _ => none

/-- One line of source text as the host's move: the command word of R61 and the payload, or nothing if the line is not a
command. -/
def assembleLine (line : String) : Option HostMove :=
  match lineWords (stripComment line.toList) [] with
  | [] => none
  | mnemonic :: operands =>
    (lineCommand (String.ofList mnemonic) operands).map fun c => .command (encode c.1) c.2

end Sys2Proof.Machine
end

