-- ==== Sys2Proof/Tests/Slice0.lean ====
section
/-! SUPPORT. Small tests, one step each, with results taken from 95_test_vectors.md (named V<n>) or the tables of
30_encoding.md; then, for each statement with hypotheses, a state and operands that meet them. -/

namespace Sys2Proof.Machine.Tests

/-! ### Well-formedness: each check refuses an ill-formed term (R53) -/

theorem test_width_17_is_ill_formed : (Instr.addField 17 0).wf = false ∧ (Instr.extract 17).wf = false := by decide

theorem test_width_16_is_well_formed : (Instr.addField 16 0).wf = true ∧ (Instr.extract 16).wf = true := by decide

theorem test_register_14_is_ill_formed : (Instr.setRec 14 0).wf = false ∧ (Instr.getRec 31).wf = false := by decide

theorem test_register_13_is_well_formed : (Instr.setRec 13 0).wf = true ∧ (Instr.getRec 13).wf = true := by decide

/-! ### Decoding: a word of each row, field by field `op z w v` (R51, R52) -/

theorem test_decode_clear : decodeTableWord 32 0b0001_0000000_00000_0000000000000000 = some .clear := by decide

theorem test_decode_addField :
    decodeTableWord 32 0b0010_0000000_00111_0000000000000101 = some (.addField 7 5) := by decide

theorem test_decode_extract :
    decodeTableWord 32 0b0011_0000000_10000_0000000000000000 = some (.extract 16) := by decide

theorem test_decode_toSeptets : decodeTableWord 32 0b0100_0000000_00000_0000000000000000 = some .toSeptets := by decide

theorem test_decode_fromSeptets :
    decodeTableWord 32 0b0101_0000000_00000_0000000000001101 = some (.fromSeptets 13) := by decide

theorem test_decode_setRec :
    decodeTableWord 32 0b0110_0000000_01010_0000011111010000 = some (.setRec 10 2000) := by decide

theorem test_decode_getRec : decodeTableWord 32 0b0111_0000000_01010_0000000000000000 = some (.getRec 10) := by decide

theorem test_decode_encCfg : decodeTableWord 32 0b1000_0000000_00000_0000000000000000 = some .encCfg := by decide

theorem test_decode_decCfg :
    decodeTableWord 32 0b1001_0000000_00000_0000000000001101 = some (.decCfg 13) := by decide

theorem test_decode_encVer :
    decodeTableWord 32 0b1010_0000000_00000_0000000000000010 = some (.encVer 2) := by decide

theorem test_decode_decVer :
    decodeTableWord 32 0b1011_0000000_00000_0000000000000011 = some (.decVer 3) := by decide

/-- The name under which a word is refused. -/
def refusedAs (word : CmdWord) : Option Illegal :=
  match decode word with
  | .ok _ => none
  | .error e => some e

/-- V53a. -/
theorem test_reserved_opcodes :
    [0x00000000#32, 0xC0000000#32, 0xD0000000#32, 0xE0000000#32, 0xF0000000#32].map refusedAs =
      List.replicate 5 (some .reservedOpcode) := by decide

/-- V53a, the all-ones word, and V53b. -/
theorem test_z_bits : [0xFFFFFFFF#32, 0x10200000#32, 0x28070005#32].map refusedAs =
    List.replicate 3 (some .zNotZero) := by decide

/-- V53c. -/
theorem test_w_bits :
    [0x10010000#32, 0x40010000#32, 0x50010003#32, 0x80010000#32, 0xA0010002#32].map refusedAs =
      List.replicate 5 (some .wNotZero) := by decide

/-- V53d. -/
theorem test_v_bits :
    [0x10000001#32, 0x30020001#32, 0x40000001#32, 0x700A0001#32, 0x80000001#32].map refusedAs =
      List.replicate 5 (some .vNotZero) := by decide

/-- V53e and V53f. -/
theorem test_ranges :
    [0x20110000#32, 0x201F0000#32, 0x30110000#32].map refusedAs = List.replicate 3 (some .widthOutOfRange) ∧
      [0x600E0000#32, 0x701F0000#32].map refusedAs = List.replicate 2 (some .registerOutOfRange) := by decide

/-! ### Commands -/

/-- The next state, if there is one. -/
def answer : Host.Outcome State Fault Refusal → Option State
  | .next t => some t
  | .fault _ => none
  | .refused _ => none

/-- A state with this buffer and these record registers, and nothing on the channels. -/
def stateOf (store : Store) (used cursor : Pointer) (recs : Records) (din : List Byte) : State :=
  { State.reset with buf := { store := store, used := used, cursor := cursor }, recs := recs, din := din }

/-- The last response, with `U`, `C` and the store after a command. -/
def after (i : Instr) (s : State) : Option (Nat × Nat × Store × List Response) :=
  (answer (exec i s)).map fun t => (t.buf.used.toNat, t.buf.cursor.toNat, t.buf.store, t.responses)

/-- The record registers and the pointers after a command, and the bytes left on the channel. -/
def recordAfter (i : Instr) (s : State) : Option (List Nat × Nat × Nat × List Byte) :=
  (answer (exec i s)).map fun t =>
    (t.recs.toList.map BitVec.toNat, t.buf.used.toNat, t.buf.cursor.toNat, t.din)

/-- Registers all alike. -/
def allRecs (v : Half) : Records := Vector.replicate 14 v

/-- The record of S2. -/
def recordS2 : Records := #v[1, 0, 2, 0, 5, 10, 0, 2, 3, 4, 2000, 1, 60, 100]

/-- The payload of S2. -/
def payloadS2 : List Byte := [0x24, 0x02, 0x45, 0x00, 0x01, 0x01, 0x42, 0x01, 0x7A, 0x00, 0x17, 0x4C, 0x40]

/-- The store of S2 (11 bytes, then zeros). -/
def storeS2 : Store := 0x480A28002061_01F400BCC8_0000000000

/-- V2. -/
theorem test_clear :
    after .clear (stateOf storeS2 87 30 (allRecs 200) []) = some (0, 0, 0, [okEmpty]) := by decide

/-- V5, the field of 7 bits behind the first store byte `48`. -/
theorem test_addField_straddles :
    after (.addField 7 5) (stateOf (0x48#128 <<< 120) 8 0 (allRecs 0) []) =
      some (15, 0, 0x480A#128 <<< 112, [okEmpty]) := by decide

/-- V11c: 127 + 2 exceeds the capacity. -/
theorem test_addField_full :
    after (.addField 2 3) (stateOf (0x0F0F#128 <<< 112) 127 0 (allRecs 0) []) =
      some (127, 0, 0x0F0F#128 <<< 112, [failed .errCapacity]) := by decide

/-- V15b on the store of V15a. -/
theorem test_extract_reads :
    after (.extract 7) (stateOf (0x480A28#128 <<< 104) 21 8 (allRecs 0) []) =
      some (21, 15, 0x480A28#128 <<< 104, [⟨.ok, 5, []⟩]) := by decide

/-- V15c: the underflow returns 0 and leaves the cursor. -/
theorem test_extract_underflow :
    after (.extract 7) (stateOf (0x480A28#128 <<< 104) 21 15 (allRecs 0) []) =
      some (21, 15, 0x480A28#128 <<< 104, [okEmpty]) := by decide

/-- V30a. -/
theorem test_toSeptets_pads :
    after .toSeptets (stateOf (0xFFF8#128 <<< 112) 13 0 (allRecs 0) []) =
      some (13, 0, 0xFFF8#128 <<< 112, [⟨.ok, 0, [0x7F, 0x7E]⟩]) := by decide +kernel

/-- V31: a full buffer gives 19 bytes. -/
theorem test_toSeptets_full :
    (after .toSeptets (stateOf 0x0F0F0F0F0F0F0F0F0F0F0F0F0F0FFFFF 128 0 (allRecs 0) [])).map (·.2.2.2) =
      some [⟨.ok, 0, [0x07, 0x43, 0x61, 0x70, 0x78, 0x3C, 0x1E, 0x0F, 0x07, 0x43, 0x61, 0x70, 0x78, 0x3C, 0x1E, 0x0F,
        0x7F, 0x7F, 0x60]⟩] := by decide +kernel

/-- V33: bit 7 is ignored; the byte behind the payload stays. -/
theorem test_fromSeptets_ignores_bit7 :
    after (.fromSeptets 3) (stateOf storeS2 87 30 (allRecs 0) [0x81, 0xFF, 0x80, 0x55]) =
      some (21, 0, 0x03FC00#128 <<< 104, [okEmpty]) := by decide +kernel

/-- V35b: 19 bytes exceed the capacity; they are taken all the same. -/
theorem test_fromSeptets_too_long :
    after (.fromSeptets 19) (stateOf (0xAA#128 <<< 120) 8 0 (allRecs 0) (List.replicate 19 1)) =
      some (8, 0, 0xAA#128 <<< 120, [failed .errCapacity]) ∧
    (recordAfter (.fromSeptets 19) (stateOf (0xAA#128 <<< 120) 8 0 (allRecs 0) (List.replicate 20 1))).map (·.2.2.2) =
      some [1] := by decide +kernel

/-- V51a: the register is not masked. -/
theorem test_setRec :
    (recordAfter (.setRec 11 200) State.reset).map (·.1) = some [0, 0, 0, 0, 0, 0, 0, 0, 0, 0, 0, 200, 0, 0] := by
  decide +kernel

/-- V51a. -/
theorem test_getRec :
    (after (.getRec 11) (stateOf 0 0 0 (allRecs 200) [])).map (·.2.2.2) = some [⟨.ok, 200, []⟩] := by decide +kernel

/-- V38. -/
theorem test_encCfg :
    after .encCfg (stateOf 0 9 5 recordS2 []) = some (87, 0, storeS2, [⟨.ok, 0, payloadS2⟩]) := by decide +kernel

/-- V40: channel 200 is packed as 72. -/
theorem test_encCfg_cuts_channel :
    (after .encCfg (stateOf 0 0 0 (recordS2.set 11 200) [])).map (·.2.2.2) =
      some [⟨.ok, 0, [0x24, 0x02, 0x45, 0x00, 0x01, 0x01, 0x42, 0x01, 0x7A, 0x09, 0x07, 0x4C, 0x40]⟩] := by decide +kernel

/-- V39. -/
theorem test_decCfg :
    recordAfter (.decCfg 13) (stateOf 0 0 0 (allRecs 0xFFFF) payloadS2) =
      some ([1, 0, 2, 0, 5, 10, 0, 2, 3, 4, 2000, 1, 60, 100], 91, 87, []) := by decide +kernel

/-- V37: nine septets, where channel reads on after wpm100 underflows. -/
theorem test_decCfg_nine :
    recordAfter (.decCfg 9) (stateOf 0 0 0 (allRecs 0xFFFF) (List.replicate 9 0x55)) =
      some ([2, 2, 2, 3, 43, 43, 43, 43, 43, 43, 0, 43, 0, 0], 63, 57, []) := by decide +kernel

/-- V48. -/
theorem test_encVer :
    after (.encVer 0x1234) (stateOf storeS2 87 3 (allRecs 0) []) =
      some (16, 0, 0x1234#128 <<< 112, [⟨.ok, 0, [0x09, 0x0D, 0x00]⟩]) := by decide +kernel

/-- V49. -/
theorem test_decVer :
    after (.decVer 3) (stateOf 0 0 0 (allRecs 0) [0x40, 0x00, 0x20]) =
      some (21, 16, 0x8001#128 <<< 112, [⟨.ok, 32769, []⟩]) := by decide +kernel

/-- V50a: two bytes are too few for 16 bits. -/
theorem test_decVer_short :
    after (.decVer 2) (stateOf 0 0 0 (allRecs 0) [0x7F, 0x7F]) =
      some (14, 0, 0xFFFC#128 <<< 112, [okEmpty]) := by decide +kernel

/-- V5. -/
theorem test_assemble_addField : assembleLine "ADDFIELD 7, 5" = some (.command 0x20070005 []) := by decide +kernel

/-- V51a: a register's alias, a hexadecimal number and a comment. -/
theorem test_assemble_alias : assembleLine "SETREC channel, 0xC8 ; not masked" = some (.command 0x600B00C8 []) := by
  decide +kernel

/-- V15a (`FROMSEPTETS 24 02 45`) and R82's example (the same bytes with `0x`): one payload, which the assembler counts. -/
theorem test_assemble_payload :
    assembleLine "FROMSEPTETS 24 02 45" = some (.command 0x50000003 [0x24, 0x02, 0x45]) ∧
      assembleLine "FROMSEPTETS 0x24 0x02 0x45" = assembleLine "FROMSEPTETS 24 02 45" := by decide +kernel

/-- V39, whose bytes `7A`, `4C` are no decimal numbers. -/
theorem test_assemble_hexadecimal_payload :
    assembleLine "DECCFG 24 02 45 00 01 01 42 01 7A 00 17 4C 40" = some (.command 0x9000000D payloadS2) := by decide +kernel

/-- V51b: a number beyond the registers gives the illegal word. -/
theorem test_assemble_illegal : assembleLine "SETREC 14, 0" = some (.command 0x600E0000 []) := by decide +kernel

/-- The byte view of R11 on the store of S2. -/
theorem test_byte_view : [storeByte storeS2 0, storeByte storeS2 6, storeByte storeS2 10] = [0x48, 0x01, 0xC8] := by decide

/-- R66 and R5: the totals that 90_conflicts.md C1 settles. -/
theorem test_schema_totals : cfgBits = 87 ∧ cfgSept = 13 ∧ verBits = 16 ∧ verSept = 3 := by decide

/-- R18: the register numbers of two fields. -/
theorem test_field_registers : fieldRegister .wpm100 = some 10 ∧ fieldRegister .channel = some 11 := by decide

/-- V53c: the illegal word `0x50010003` takes no payload byte. -/
theorem test_illegal_word_takes_no_payload :
    (answer (step { State.reset with host := [.command 0x50010003 [1, 2, 3]] })).map (fun t => (t.din, t.responses)) =
      some ([1, 2, 3], [failed .errIllegal]) := by decide

/-! ### Witnesses: a state and operands that meet the hypotheses of each statement that has any, at the ends of their ranges -/

/-- A computed next state with a checked property is a next state with that property. -/
theorem next_of {o : Host.Outcome State Fault Refusal} {P : State → Prop} [DecidablePred P]
    (h : ((answer o).any fun t => decide (P t)) = true) : ∃ t, o = .next t ∧ P t := by
  cases o with
  | next t => exact ⟨t, rfl, by simpa [answer] using h⟩
  | fault f => simp [answer] at h
  | refused r => simp [answer] at h

/-- A state like S2 after ENCCFG, whose host still makes these moves. -/
def playing (host : List HostMove) (din : List Byte) (busy : Option Instr) : State :=
  { stateOf storeS2 87 30 recordS2 din with host := host, busy := busy }

/-- `k` bytes of payload. -/
def bytes (k : Nat) : List Byte := List.replicate k 0xD5

/-- The payload that a command returns. -/
def payloadOut (o : Host.Outcome State Fault Refusal) : Option (List Byte) :=
  (answer o).bind fun t => t.responses.getLast?.map (·.payload)

/-- A computed payload with a checked property is a payload with that property. -/
theorem out_of {o : Host.Outcome State Fault Refusal} {P : List Byte → Prop} [DecidablePred P]
    (h : ((payloadOut o).any fun out => decide (P out)) = true) : ∃ out, payloadOut o = some out ∧ P out := by
  cases ho : payloadOut o with
  | some out => exact ⟨out, rfl, by simpa [ho] using h⟩
  | none => simp [ho] at h

/-- A block in use whose record registers are all zero. -/
theorem witness_ResetLeavesFreshBlock :
    (∀ i : Fin 14, (stateOf storeS2 87 30 (allRecs 0) []).recs[i] = 0) ∧ (stateOf storeS2 87 30 (allRecs 0) []).buf.used = 87 := by
  decide +kernel

theorem witness_StepKeepsInvariant :
    (playing [.command 0x9000000D []] payloadS2 none).Inv ∧
      (∃ t, step (playing [.command 0x9000000D []] payloadS2 none) = .next t ∧ t.responses ≠ []) ∧
      (playing [] (bytes 12) (some (.decCfg 13))).Inv ∧
      (∃ t, step (playing [] (bytes 12) (some (.decCfg 13))) = .next t ∧ t.busy ≠ none) :=
  ⟨by decide +kernel, next_of (by decide +kernel), by decide +kernel, next_of (by decide +kernel)⟩

theorem witness_StepRunsIssuedCommand :
    (playing [.command 0x9000000D payloadS2, .rst] [] none).busy = none ∧
      (playing [.command 0x9000000D payloadS2, .rst] [] none).host = .command 0x9000000D payloadS2 :: [.rst] ∧
      decode 0x9000000D = .ok (.decCfg 13) := by decide +kernel

/-- One word for each of the six cases. -/
theorem witness_IllegalWordFailsWithoutEffect :
    (playing [.command 0xC0000000 []] [] none).busy = none ∧ IllegalWord 0x0FFFFFFF ∧ IllegalWord 0xC0000000 ∧
      IllegalWord 0x20200000 ∧ IllegalWord 0x10010000 ∧ IllegalWord 0x30020001 ∧ IllegalWord 0x20110000 ∧
      IllegalWord 0x600E0000 := by
  refine ⟨rfl, ?_, ?_, ?_, ?_, ?_, ?_, ?_⟩ <;> (dsimp only [IllegalWord]; decide)

theorem witness_ResetMoveRestoresResetState :
    (playing [.rst] (bytes 2) none).host = .rst :: [] ∧ (playing [.rst] (bytes 2) none).busy = none ∧
      (playing [.rst] (bytes 2) (some (.decVer 3))).host = .rst :: [] ∧
      (playing [.rst] (bytes 2) (some (.decVer 3))).busy = some (.decVer 3) := by decide +kernel

theorem witness_IdleStepChangesNothing : (playing [] (bytes 2) none).host = [] ∧ (playing [] (bytes 2) none).busy = none := by
  decide +kernel

theorem witness_ShortPayloadWaits :
    (playing [] (bytes 12) none).din.length < payloadCount (.decCfg 13) ∧
      (playing [.command 0x10000000 []] (bytes 2) (some (.decVer 3))).busy = some (.decVer 3) ∧
      (playing [.command 0x10000000 []] (bytes 2) (some (.decVer 3))).din.length < payloadCount (.decVer 3) ∧
      ∀ rest, (playing [.command 0x10000000 []] (bytes 2) (some (.decVer 3))).host ≠ .rst :: rest :=
  ⟨by decide +kernel, rfl, by decide +kernel, by simp [playing]⟩

theorem witness_FirstCommandAfterReset : (16 : WField).toNat ≤ 16 ∧ (0 : WField).toNat ≤ 16 ∧ (13 : WField).toNat ≤ 13 := by
  decide

theorem witness_DecodeOfEncodeIsIdentity :
    (Instr.addField 16 0xFFFF).wf = true ∧ (Instr.setRec 13 0xFFFF).wf = true ∧ (Instr.decVer 0xFFFF).wf = true := by decide

theorem witness_EncodeOfDecodeIsIdentity : decode 0x2010ABCD = .ok (.addField 16 0xABCD) := by decide

/-- Legal words in the first and the last row, a word just beyond a range limit, and one that no row selects. -/
theorem witness_LegalWordsSelectOneTableRow :
    (0xFFE00000, 0x20000000) ∈ opcodeTable ∧ (0x2010ABCD : CmdWord) &&& 0xFFE00000 = 0x20000000 ∧ rangeLimit 0x2010ABCD ∧
      (0x20110000 : CmdWord) &&& 0xFFE00000 = 0x20000000 ∧ ¬ rangeLimit 0x20110000 ∧
      opcodeTable.all (fun row => (0xC0000000 : CmdWord) &&& row.1 != row.2) = true := by
  dsimp only [rangeLimit]; decide +kernel

/-- One word for each of the three opcodes with a payload, and one without; and an illegal word whose `v` is not 0. -/
theorem witness_PayloadCountIsReadOffTheWord :
    (decode 0x5000FFFF = .ok (.fromSeptets 0xFFFF) ∧ decode 0x90000000 = .ok (.decCfg 0) ∧
      decode 0xB0000003 = .ok (.decVer 3) ∧ decode 0xA000FFFF = .ok (.encVer 0xFFFF)) ∧
    ((playing [.command 0x50010003 (bytes 3)] [] none).busy = none ∧
      (playing [.command 0x50010003 (bytes 3)] [] none).host = .command 0x50010003 (bytes 3) :: [] ∧
      IllegalWord 0x50010003) := by
  refine ⟨by decide, rfl, rfl, ?_⟩
  dsimp only [IllegalWord]; decide

/-- Both commands that lower a pointer. -/
theorem witness_ClearMakesBufferFresh :
    (isLayer2 .clear = false ∧ ∃ t, exec .clear (stateOf storeS2 87 30 recordS2 []) = .next t ∧
        t.buf.used.toNat < (stateOf storeS2 87 30 recordS2 []).buf.used.toNat) ∧
      (isLayer2 (.fromSeptets 18) = false ∧
        ∃ t, exec (.fromSeptets 18) (stateOf storeS2 87 30 recordS2 (bytes 18)) = .next t ∧
          t.buf.cursor.toNat < (stateOf storeS2 87 30 recordS2 (bytes 18)).buf.cursor.toNat) :=
  ⟨⟨rfl, next_of (by decide +kernel)⟩, rfl, next_of (by decide +kernel)⟩

/-- The sum is exactly the capacity, with a width of 16 and with a width of 0; one bit too many; a width just too large. -/
theorem witness_AddFieldAppendsLowBits :
    ((16 : WField).toNat ≤ 16 ∧ (stateOf 0 112 3 recordS2 []).buf.used.toNat + (16 : WField).toNat ≤ 128 ∧
      (0 : WField).toNat ≤ 16 ∧ (stateOf 0 128 3 recordS2 []).buf.used.toNat + (0 : WField).toNat ≤ 128) ∧
    (128 < (stateOf 0 113 3 recordS2 []).buf.used.toNat + (16 : WField).toNat ∧
      (1 : WField).toNat ≤ 16 ∧ 128 < (stateOf 0 128 3 recordS2 []).buf.used.toNat + (1 : WField).toNat) ∧
    16 < (17 : WField).toNat := by decide

theorem witness_OutOfRangeOperandsAreIllegal : 16 < (17 : WField).toNat ∧ 13 < (14 : WField).toNat ∧ 16 < (31 : WField).toNat := by
  decide

/-- Exactly `w` bits remain, for `w` 16 and for `w` 0; one bit too few; a width just too large. -/
theorem witness_ExtractReturnsNextBits :
    ((16 : WField).toNat ≤ 16 ∧
      (stateOf storeS2 87 71 recordS2 []).buf.cursor.toNat + (16 : WField).toNat ≤
        (stateOf storeS2 87 71 recordS2 []).buf.used.toNat ∧
      (stateOf storeS2 87 87 recordS2 []).buf.cursor.toNat + (0 : WField).toNat ≤
        (stateOf storeS2 87 87 recordS2 []).buf.used.toNat) ∧
    (stateOf storeS2 87 72 recordS2 []).buf.used.toNat <
      (stateOf storeS2 87 72 recordS2 []).buf.cursor.toNat + (16 : WField).toNat ∧
    16 < (17 : WField).toNat := by decide

/-- 18 bytes are the most that fit, 0 the fewest; 19 are one too many. -/
theorem witness_FromSeptetsReplacesBuffer :
    ((stateOf storeS2 87 30 recordS2 (bytes 18 ++ [1])).din = bytes 18 ++ [1] ∧ (bytes 18).length = (18 : Half).toNat ∧
        7 * (18 : Half).toNat ≤ 128) ∧
      ((stateOf storeS2 87 30 recordS2 [1]).din = [] ++ [1] ∧ ([] : List Byte).length = (0 : Half).toNat ∧
        7 * (0 : Half).toNat ≤ 128) ∧
      ((stateOf storeS2 87 30 recordS2 (bytes 19 ++ [1])).din = bytes 19 ++ [1] ∧ (bytes 19).length = (19 : Half).toNat ∧
        128 < 7 * (19 : Half).toNat) := by decide

/-- The second part's equalities hold of a buffer and itself; two buffers that differ only in a cursor meet the first two. -/
theorem witness_NumberViewDeterminesBuffer :
    (BitBuffer.mk storeS2 87 30).Inv ∧ (BitBuffer.mk storeS2 87 31).Inv ∧
      (BitBuffer.mk storeS2 87 30).number = (BitBuffer.mk storeS2 87 31).number ∧
      (BitBuffer.mk storeS2 87 30).used = (BitBuffer.mk storeS2 87 31).used := by decide +kernel

/-- The first bit of the first byte and the last bit of the last. -/
theorem witness_ByteViewOfStore : 0 < 16 ∧ 0 < 8 ∧ 15 < 16 ∧ 7 < 8 := by decide

/-- Eight fields of 16 bits fill the buffer. -/
def fullFields : List (WField × Half) := List.replicate 8 (16, 0xABCD)

theorem witness_FieldsComeBackInOrder : (∀ f ∈ fullFields, f.1.toNat ≤ 16) ∧ widthSum (fullFields.map Prod.fst) ≤ 128 :=
  ⟨by simp [fullFields], by decide +kernel⟩

theorem witness_ExtractsRecutTheStore :
    (∀ w ∈ [7, 0, (16 : WField)], w.toNat ≤ 16) ∧
      (stateOf storeS2 87 64 recordS2 []).buf.cursor.toNat + widthSum [7, 0, 16] ≤
        (stateOf storeS2 87 64 recordS2 []).buf.used.toNat := by decide

/-- The widths sum to 128, and to 129. -/
theorem witness_AddFieldsSucceedUpToCapacity :
    (∀ f ∈ fullFields, f.1.toNat ≤ 16) ∧ widthSum (fullFields.map Prod.fst) = 128 ∧
      (∀ f ∈ (1, 1) :: fullFields, f.1.toNat ≤ 16) ∧ widthSum (((1, 1) :: fullFields).map Prod.fst) = 129 :=
  ⟨by simp [fullFields], by decide +kernel, by simp [fullFields], by decide +kernel⟩

theorem witness_HighBitsOfPayloadAreIgnored :
    ([0x81, 0xFF, 0x80] : List Byte).length = (3 : Half).toNat ∧
      ([0x81, 0xFF, 0x80] : List Byte).map (· &&& 0x7F#8) = [0x01, 0x7F, 0x00].map (· &&& 0x7F#8) := by decide

/-- 126 bits are the most that can be loaded back: their 18 septets are the payload of some FROMSEPTETS. -/
theorem witness_StoreSurvivesSeptetStream :
    (stateOf storeS2 126 30 recordS2 []).buf.used.toNat ≤ 126 ∧
      ∃ out, payloadOut (exec .toSeptets (stateOf storeS2 126 30 recordS2 [])) = some out ∧
        (stateOf 0 0 0 (allRecs 7) (out ++ [1])).din = out ++ [1] ∧ (18 : Half).toNat = out.length :=
  ⟨by decide, out_of (by decide +kernel)⟩

/-- 127 and 128 bits, and a block that is sent the 19 bytes. -/
theorem witness_FullBufferCannotBeLoadedBack :
    (126 < (stateOf 0 127 30 recordS2 []).buf.used.toNat ∧ (stateOf 0 127 30 recordS2 []).buf.used.toNat ≤ 128) ∧
      (126 < (stateOf 0 128 30 recordS2 []).buf.used.toNat ∧ (stateOf 0 128 30 recordS2 []).buf.used.toNat ≤ 128) ∧
      ∃ out, payloadOut (exec .toSeptets (stateOf 0 128 30 recordS2 [])) = some out ∧ out.length = 19 ∧
        (stateOf 0 0 0 (allRecs 7) (out ++ [1])).din = out ++ [1] :=
  ⟨by decide, by decide, out_of (by decide +kernel)⟩

theorem witness_SeptetStreamSurvivesBuffer :
    (stateOf storeS2 87 30 recordS2 (bytes 18 ++ [1])).din = bytes 18 ++ [1] ∧ (bytes 18).length = (18 : Half).toNat ∧
      7 * (18 : Half).toNat ≤ 128 := by decide

/-- Fields of 126 bits, packed into 18 septets and sent to another block. -/
theorem witness_PackedFieldsUnpackOnAnotherBlock :
    (∀ f ∈ (14, 0x5555) :: List.replicate 7 ((16 : WField), (0xABCD : Half)), f.1.toNat ≤ 16) ∧
      widthSum (((14, 0x5555) :: List.replicate 7 ((16 : WField), (0xABCD : Half))).map Prod.fst) ≤ 126 ∧
      ∃ out, payloadOut (execAll (.clear ::
          (addFields ((14, 0x5555) :: List.replicate 7 ((16 : WField), (0xABCD : Half))) ++ [.toSeptets]))
            (stateOf storeS2 87 30 recordS2 [])) = some out ∧
        (stateOf 0 0 0 (allRecs 7) (out ++ [1])).din = out ++ [1] ∧ (18 : Half).toNat = out.length :=
  ⟨by simp, by decide +kernel, out_of (by decide +kernel)⟩

theorem witness_SetRecWritesOneRegister : (13 : WField).toNat < 14 ∧ (0 : WField).toNat < 14 ∧ 13 < (14 : WField).toNat := by
  decide

theorem witness_GetRecReturnsRegister : (13 : WField).toNat < 14 ∧ (0 : WField).toNat < 14 ∧ 13 < (14 : WField).toNat := by
  decide

theorem witness_DecCfgUnpacksRecord :
    ((bytes 13).length = (13 : Half).toNat ∧ 13 ≤ (13 : Half).toNat ∧ (13 : Half).toNat ≤ 18) ∧
      ((bytes 18).length = (18 : Half).toNat ∧ 13 ≤ (18 : Half).toNat ∧ (18 : Half).toNat ≤ 18) ∧
      (stateOf storeS2 87 30 recordS2 (bytes 18 ++ [1])).din = bytes 18 ++ [1] := by decide

theorem witness_ShortConfigurationReadsZeros :
    (∀ n ∈ [0, 1, 8, 10, (12 : Half)], (bytes n.toNat).length = n.toNat ∧ n.toNat < 13 ∧ n.toNat ≠ 9) ∧
      (stateOf storeS2 87 30 recordS2 (bytes 12 ++ [1])).din = bytes 12 ++ [1] :=
  ⟨by simp [bytes], rfl⟩

theorem witness_NineSeptetConfiguration :
    (stateOf storeS2 87 30 recordS2 (bytes 9 ++ [1])).din = bytes 9 ++ [1] ∧ (bytes 9).length = 9 := by decide

theorem witness_DecVerReturnsVersion :
    (∀ n ∈ [0, 2, 3, (18 : Half)], (bytes n.toNat).length = n.toNat ∧ n.toNat ≤ 18) ∧
      (stateOf storeS2 87 30 recordS2 (bytes 18 ++ [1])).din = bytes 18 ++ [1] :=
  ⟨by simp [bytes], rfl⟩

theorem witness_DecCfgIsItsExpansion :
    (∀ n ∈ [0, 9, 13, (18 : Half)], (bytes n.toNat).length = n.toNat ∧ n.toNat ≤ 18) ∧ 13 ≤ (13 : Half).toNat ∧
      ((bytes 19).length = (19 : Half).toNat ∧ 19 ≤ (19 : Half).toNat) ∧
      (stateOf storeS2 87 30 recordS2 (bytes 18 ++ [1])).din = bytes 18 ++ [1] ∧
      (stateOf storeS2 87 30 recordS2 (bytes 19 ++ [1])).din = bytes 19 ++ [1] :=
  ⟨by simp [bytes], by decide, by decide, rfl, rfl⟩

theorem witness_DecVerIsItsExpansion :
    (∀ n ∈ [0, 2, 3, (18 : Half)], (bytes n.toNat).length = n.toNat ∧ n.toNat ≤ 18) ∧
      ((bytes 19).length = (19 : Half).toNat ∧ 19 ≤ (19 : Half).toNat) ∧
      (stateOf storeS2 87 30 recordS2 (bytes 18 ++ [1])).din = bytes 18 ++ [1] ∧
      (stateOf storeS2 87 30 recordS2 (bytes 19 ++ [1])).din = bytes 19 ++ [1] :=
  ⟨by simp [bytes], by decide, rfl, rfl⟩

theorem witness_ExtraSeptetsAreNeverRead :
    (payloadS2.length = 13 ∧ (18 : Half).toNat = (payloadS2 ++ bytes 5).length ∧ (18 : Half).toNat ≤ 18) ∧
      ((bytes 3).length = 3 ∧ (18 : Half).toNat = (bytes 3 ++ bytes 15).length ∧ (18 : Half).toNat ≤ 18) := by decide

/-- A record whose registers fit, encoded and sent to another block. -/
theorem witness_ConfigurationRoundTrip :
    (∀ i : Fin 14, (stateOf 0 0 0 recordS2 []).recs[i].toNat < 2 ^ specWidth i) ∧
      payloadOut (exec .encCfg (stateOf 0 0 0 recordS2 [])) = some payloadS2 ∧
      (stateOf storeS2 87 30 (allRecs 7) (payloadS2 ++ [1])).din = payloadS2 ++ [1] :=
  ⟨by decide +kernel, by decide +kernel, rfl⟩

theorem witness_VersionRoundTrip :
    payloadOut (exec (.encVer 0x8001) (stateOf 0 0 0 recordS2 [])) = some [0x40, 0x00, 0x20] ∧
      (stateOf storeS2 87 30 (allRecs 7) [0x40, 0x00, 0x20, 0x01]).din = [0x40, 0x00, 0x20] ++ [1] :=
  ⟨by decide +kernel, rfl⟩

theorem witness_LayerOneReadsWhatLayerTwoLeft :
    payloadS2.length = 13 ∧ (stateOf 0 0 0 recordS2 (payloadS2 ++ [1])).din = payloadS2 ++ [1] := by decide

/-- Each of the three statuses that are not `OK`; an illegal word that the host issues, and a legal one that fails. -/
theorem witness_FailureChangesNothing :
    (∃ t, exec (.addField 2 3) (stateOf storeS2 127 30 recordS2 []) = .next t ∧ t.responses = [] ++ [failed .errCapacity]) ∧
      (∃ t, exec (.decCfg 19) (stateOf storeS2 87 30 recordS2 (bytes 19)) = .next t ∧
        t.responses = [] ++ [failed .errMalformed]) ∧
      (∃ t, exec (.setRec 14 1) (stateOf storeS2 87 30 recordS2 []) = .next t ∧ t.responses = [] ++ [failed .errIllegal]) ∧
      (∃ t, step (playing [.command 0x0 []] [] none) = .next t ∧ t.responses = [] ++ [failed .errIllegal]) ∧
      (∃ t, step (playing [.command 0x90000013 (bytes 19)] [] none) = .next t ∧ t.responses = [] ++ [failed .errMalformed]) ∧
      ∀ st ∈ [Status.errCapacity, .errMalformed, .errIllegal], (failed st).status ≠ .ok :=
  ⟨next_of (by decide +kernel), next_of (by decide +kernel), next_of (by decide +kernel), next_of (by decide +kernel), next_of (by decide +kernel), by decide⟩

/-- A failed ADDFIELD, and commands that follow with their bytes at hand. -/
theorem witness_FailureIsNotSticky :
    (∃ t, exec (.addField 2 3) (stateOf storeS2 127 30 recordS2 []) = .next t ∧ t.responses = [] ++ [failed .errCapacity]) ∧
      (failed .errCapacity).status ≠ .ok ∧ payloadCount (.addField 1 1) ≤ ([] : List Byte).length ∧
      payloadCount (.decCfg 13) ≤ payloadS2.length :=
  ⟨next_of (by decide +kernel), by decide, by decide, by decide⟩

theorem witness_OneResponsePerCommand :
    payloadCount (.decCfg 13) ≤ (stateOf 0 0 0 recordS2 (bytes 13)).din.length ∧
      payloadCount .clear ≤ (stateOf 0 0 0 recordS2 []).din.length := by decide

/-- A state with one response of 19 bytes, the longest. -/
theorem witness_ResponseFitsItsPorts :
    ({ stateOf storeS2 87 30 recordS2 [] with responses := [⟨.ok, 0, List.replicate 19 0x7F⟩] } : State).Inv := by decide +kernel

theorem witness_OnlySetRecAndDecCfgWriteRegisters :
    (∃ t, exec (.setRec 13 9) (stateOf storeS2 87 30 recordS2 []) = .next t ∧
        t.recs ≠ (stateOf storeS2 87 30 recordS2 []).recs) ∧
      ∃ t, exec (.decCfg 13) (stateOf storeS2 87 30 recordS2 (bytes 13)) = .next t ∧
        t.recs ≠ (stateOf storeS2 87 30 recordS2 (bytes 13)).recs :=
  ⟨next_of (by decide +kernel), next_of (by decide +kernel)⟩

/-- Each command of the two lists goes on. -/
theorem witness_ReadersLeaveStoreAndPointers :
    ∀ i ∈ [Instr.extract 16, .toSeptets, .setRec 13 9, .getRec 13, .addField 16 9],
      ∃ t, exec i (stateOf storeS2 87 30 recordS2 []) = .next t ∧ t.responses ≠ [] := by
  intro i hi
  fin_cases hi <;> exact next_of (by decide +kernel)

/-- The same payload twice, one that fits and one that does not. -/
theorem witness_RepeatableCommands :
    ((stateOf storeS2 87 30 recordS2 (bytes 18 ++ bytes 18 ++ [1])).din = bytes 18 ++ bytes 18 ++ [1] ∧
        (bytes 18).length = (18 : Half).toNat) ∧
      ((stateOf storeS2 87 30 recordS2 (bytes 19 ++ bytes 19 ++ [1])).din = bytes 19 ++ bytes 19 ++ [1] ∧
        (bytes 19).length = (19 : Half).toNat) :=
  ⟨⟨rfl, by decide⟩, rfl, by decide⟩

/-- Each of the five commands ends `OK`. -/
theorem witness_OldBufferHasNoInfluence :
    ∀ i ∈ [Instr.encCfg, .encVer 0x8001, .decCfg 13, .decVer 3, .fromSeptets 18],
      ∃ t, exec i (stateOf storeS2 87 30 recordS2 (bytes 18)) = .next t ∧
        (t.responses.map (·.status)) = [.ok] := by
  intro i hi
  fin_cases hi <;> exact next_of (by decide +kernel)

/-- A block of each form, every response `OK`. -/
theorem witness_ConformingBlockIgnoresOldBuffer :
    (ConformingBlock 128 (.clear :: (addFields fullFields ++ [.toSeptets])) ∧
      ∃ t, execAll (.clear :: (addFields fullFields ++ [.toSeptets])) (stateOf storeS2 87 30 recordS2 []) = .next t ∧
        t.responses.map (·.status) = List.replicate 10 .ok) ∧
    (ConformingBlock 18 (.fromSeptets 3 :: extracts [16, 2]) ∧
      ∃ t, execAll (.fromSeptets 3 :: extracts [16, 2]) (stateOf storeS2 87 30 recordS2 (bytes 3)) = .next t ∧
        t.responses.map (·.status) = List.replicate 3 .ok) ∧
    (ConformingBlock 18 (.clear :: .fromSeptets 3 :: extracts [16, 2]) ∧
      ∃ t, execAll (.clear :: .fromSeptets 3 :: extracts [16, 2]) (stateOf storeS2 87 30 recordS2 (bytes 3)) = .next t ∧
        t.responses.map (·.status) = List.replicate 4 .ok) ∧
    (ConformingBlock 0 [.decCfg 13] ∧
      ∃ t, execAll [.decCfg 13] (stateOf storeS2 87 30 recordS2 (bytes 13)) = .next t ∧
        t.responses.map (·.status) = [.ok]) :=
  ⟨⟨.pack _, next_of (by decide +kernel)⟩, ⟨.unpack _ _ (by decide), next_of (by decide +kernel)⟩,
    ⟨.unpackCleared _ _ (by decide), next_of (by decide +kernel)⟩, .layer2 _ rfl, next_of (by decide +kernel)⟩

/-- Rounding to the nearest integer has the property that the spec asks of `round100`. -/
theorem witness_Rounding : Nonempty Rounding :=
  ⟨fun x => ⌊100 * x + 1 / 2⌋₊, fun x hx => by
    have h0 : (0 : ℝ) ≤ 100 * x + 1 / 2 := by positivity
    have h1 := Nat.floor_le h0
    have h2 := Nat.lt_floor_add_one (100 * x + 1 / 2)
    rw [abs_le]
    constructor <;> linarith⟩

/-- A negative wpm, the smallest and the largest that fit, and an encoded record that is sent on. -/
theorem witness_WpmSurvivesRoundTrip :
    Nonempty Rounding ∧ (-1 : ℝ) < 0 ∧ (0 : ℝ) ≤ 0 ∧ (0 : ℝ) ≤ 655.35 ∧ (655.35 : ℝ) ≤ 655.35 ∧
      ∃ out, payloadOut (execAll [.setRec 10 65535, .encCfg] (stateOf 0 0 0 recordS2 [])) = some out ∧
        (stateOf storeS2 87 30 (allRecs 7) (out ++ [1])).din = out ++ [1] :=
  ⟨witness_Rounding, by norm_num, le_rfl, by norm_num, le_rfl, out_of (by decide +kernel)⟩

end Sys2Proof.Machine.Tests
end

section
/-! Scope (00_scope.md): the end of a command whose payload is at hand. -/

namespace Sys2Proof.Machine

/-- `exec_cases` without its wait, which needs a short channel (70_reset_and_hazards.md R189). -/
theorem exec_ended_of_payload {i : Instr} {s : State} (h : payloadCount i ≤ s.din.length) :
    ∃ t, exec i s = .next t ∧ Ended i s t := by
  obtain ⟨t, ht, ⟨hshort, -, -⟩ | ⟨-, hend⟩⟩ := exec_cases i s
  · exact absurd h (Nat.not_le.mpr hshort)
  · exact ⟨t, ht, hend⟩

/-- A command that has ended has replied, once, and has taken its payload (30_encoding.md R55, R58). -/
theorem Ended.replied {i : Instr} {s t : State} (h : Ended i s t) :
    ∃ r, Replied s t r ∧ t.din = s.din.drop (payloadCount i) := by
  obtain ⟨st, res, out, hresp, hbusy, hhost, hdin, -⟩ := h
  exact ⟨⟨st, res, out⟩, ⟨hresp, hbusy, hhost⟩, hdin⟩

/-- Settles O53: with the bytes at hand the command ends, and the end of a command is one response. -/
theorem oneResponsePerCommand : Obligations.OneResponsePerCommand := by
  intro i s h
  obtain ⟨t, ht, hend⟩ := exec_ended_of_payload h
  obtain ⟨r, hr, hdin⟩ := hend.replied
  exact ⟨t, r, ht, hr, hdin⟩

end Sys2Proof.Machine
end

section
/-! How single commands end (30_encoding.md R60), read backwards where that is needed: from the next state to what was done. -/

namespace Sys2Proof.Machine

variable {i : Instr} {s t : State} {w : WField} {v n : Half}

theorem exec_addField_cases (h : exec (.addField w v) s = .next t) :
    (∃ b, s.buf.addField w.toNat v = .ok b ∧ t = (s.withBuf b).respond .ok 0 []) ∨ ∃ e, t = s.fail e := by
  simp only [exec, execAddField] at h
  split at h <;> cases h
  · exact .inl ⟨_, ‹_›, rfl⟩
  · exact .inr ⟨_, rfl⟩

theorem exec_extract_cases (h : exec (.extract w) s = .next t) :
    (∃ r b, s.buf.extract w.toNat = .ok (r, b) ∧ t = (s.withBuf b).respond .ok r []) ∨ ∃ e, t = s.fail e := by
  simp only [exec, execExtract] at h
  split at h <;> cases h
  · exact .inl ⟨_, _, ‹_›, rfl⟩
  · exact .inr ⟨_, rfl⟩

/-- SETREC touches nothing of the buffer (42_schema_codec.md R121). -/
theorem exec_setRec_buf (h : exec (.setRec w v) s = .next t) : t.buf = s.buf := by
  simp only [exec, execSetRec] at h
  split at h <;> cases h <;> rfl

/-- GETREC touches neither the buffer nor the registers (42_schema_codec.md R122). -/
theorem exec_getRec_frame (h : exec (.getRec w) s = .next t) : t.buf = s.buf ∧ t.recs = s.recs := by
  simp only [exec, execGetRec] at h
  split at h <;> cases h <;> exact ⟨rfl, rfl⟩

/-- While bytes are missing the command waits and changes nothing else (70_reset_and_hazards.md R189). -/
theorem exec_waits (h : s.din.length < payloadCount i) : exec i s = .next { s with busy := some i } := by
  obtain ⟨t, ht, ⟨-, -, rfl⟩ | ⟨hready, -⟩⟩ := exec_cases i s
  · exact ht
  · exact absurd h (Nat.not_lt.mpr hready)

/-- The channel lacks bytes, or it begins with a payload, which is too long for the store or fits (41_septet_ops.md R104). -/
theorem payload_cases (n : Half) (s : State) :
    s.din.length < n.toNat ∨
      ∃ payload rest, s.din = payload ++ rest ∧ payload.length = n.toNat ∧
        (128 < 7 * n.toNat ∨ 7 * payload.length ≤ 128) := by
  rcases Nat.lt_or_ge s.din.length n.toNat with hd | hd
  · exact .inl hd
  · refine .inr ⟨_, _, (List.take_append_drop n.toNat _).symm, List.length_take_of_le hd, ?_⟩
    rw [List.length_take_of_le hd]
    omega

/-- The three ends of FROMSEPTETS: it waits, fails, or loads the buffer (41_septet_ops.md R104). -/
theorem exec_fromSeptets_cases (h : exec (.fromSeptets n) s = .next t) :
    t = { s with busy := some (.fromSeptets n) } ∨
      ∃ payload rest, s.din = payload ++ rest ∧ payload.length = n.toNat ∧
        (t = ({ s with din := rest } : State).fail .errCapacity ∨
          ∃ b, s.buf.fromSeptets payload = .ok b ∧
            t = (({ s with din := rest } : State).withBuf b).respond .ok 0 []) := by
  obtain hd | ⟨payload, rest, hd, hl, hn | hn⟩ := payload_cases n s
  · rw [exec_waits hd] at h
    cases h
    exact .inl rfl
  · rw [exec_fromSeptets_long hd hl hn] at h
    cases h
    exact .inr ⟨payload, rest, hd, hl, .inl rfl⟩
  · obtain ⟨b, hb⟩ := fromSeptets_succeeds s.buf hn
    rw [exec_fromSeptets hd hl hb] at h
    cases h
    exact .inr ⟨payload, rest, hd, hl, .inr ⟨b, hb, rfl⟩⟩

/-- DECVER leaves the registers alone (42_schema_codec.md R129). -/
theorem exec_decVer_recs (h : exec (.decVer n) s = .next t) : t.recs = s.recs := by
  obtain hd | ⟨payload, rest, hd, hl, hn | hn⟩ := payload_cases n s
  · rw [exec_waits hd] at h
    cases h; rfl
  · rw [(exec_decode_long hd hl hn).2] at h
    cases h; rfl
  · obtain ⟨b, hb⟩ := fromSeptets_succeeds s.buf.clear hn
    obtain ⟨r, b', hx⟩ := extract_succeeds (b := b) (w := 16) le_rfl
    rw [exec_decVer hd hl hb hx] at h
    cases h; rfl

end Sys2Proof.Machine
end

section
/-! The machine's invariant (10_state.md R14, 41_septet_ops.md R101, R102, 70_reset_and_hazards.md R189): it holds after reset and
every step keeps it. -/

namespace Sys2Proof.Machine

/-- A fresh buffer, no response and nothing waiting: every clause of the invariant is about nothing. -/
theorem inv_of_fresh {s : State} (hbuf : s.buf = BitBuffer.reset) (hresp : s.responses = []) (hbusy : s.busy = none) :
    s.Inv :=
  ⟨hbuf ▸ clear_inv BitBuffer.reset, by simp [hresp], by simp [State.WaitsForBytes, hbusy]⟩

/-- Settles O2: the reset state is fresh. -/
theorem resetMeetsInvariant : Obligations.ResetMeetsInvariant := inv_of_fresh rfl rfl rfl

/-- A command that has ended leaves the invariant, its response being well-formed. -/
theorem Ended.inv {i : Instr} {s t : State} (h : Ended i s t) (hbuf : s.buf.Inv)
    (hresp : ∀ r ∈ s.responses, r.WellFormed) : t.Inv := by
  obtain ⟨st, res, out, hr, hbusy, -, -, hfail, hinv, hseptets, hlen⟩ := h
  have hnew : (⟨st, res, out⟩ : Response).WellFormed :=
    ⟨hlen hbuf, hseptets, fun hst => (hfail hst).2.2⟩
  refine ⟨hinv hbuf, fun r hmem => ?_, by simp [State.WaitsForBytes, hbusy]⟩
  rw [hr, List.mem_append, List.mem_singleton] at hmem
  obtain hold | rfl := hmem
  · exact hresp r hold
  · exact hnew

/-- A command keeps the invariant, whatever waited before it. -/
theorem exec_keeps_inv {i : Instr} {s t : State} (h : exec i s = .next t) (hbuf : s.buf.Inv)
    (hresp : ∀ r ∈ s.responses, r.WellFormed) : t.Inv := by
  obtain ⟨t', ht, ⟨hshort, hwf, rfl⟩ | ⟨-, hend⟩⟩ := exec_cases i s <;> cases ht.symm.trans h
  · exact ⟨hbuf, hresp, by simp [State.WaitsForBytes, hwf, hshort]⟩
  · exact hend.inv hbuf hresp

/-- What a step can be: a reset, a command that was waiting, no move at all, or a command word taken. -/
theorem step_cases {s t : State} (h : step s = .next t) :
    (∃ rest, s.host = .rst :: rest ∧ t = s.applyReset rest) ∨ (∃ i, s.busy = some i ∧ exec i s = .next t) ∨
      (s.host = [] ∧ s.busy = none ∧ t = s) ∨
      ∃ word payload rest, s.host = .command word payload :: rest ∧ s.busy = none ∧
        stepWord word (s.accept payload rest) = .next t := by
  unfold step at h
  split at h
  next rest hhost => cases h; exact .inl ⟨rest, hhost, rfl⟩
  next i hbusy _ => exact .inr (.inl ⟨i, hbusy, h⟩)
  next hhost hbusy => cases h; exact .inr (.inr (.inl ⟨hhost, hbusy, rfl⟩))
  next word payload rest hhost hbusy => exact .inr (.inr (.inr ⟨word, payload, rest, hhost, hbusy, h⟩))

/-- A word is performed, or it is illegal (30_encoding.md R57, R60). -/
theorem stepWord_cases {word : CmdWord} {s t : State} (h : stepWord word s = .next t) :
    (∃ i, decode word = .ok i ∧ exec i s = .next t) ∨ (∃ e, decode word = .error e ∧ t = s.fail .errIllegal) := by
  unfold stepWord at h
  split at h
  next i hi => exact .inl ⟨i, hi, h⟩
  next e he => cases h; exact .inr ⟨e, he, rfl⟩

/-- A failure keeps the invariant: it ends like a failing command that takes no payload. -/
theorem fail_inv {s : State} {st : Status} (hbuf : s.buf.Inv) (hresp : ∀ r ∈ s.responses, r.WellFormed) :
    (s.fail st).Inv :=
  (ended_fail .clear s s.din st rfl).inv hbuf hresp

/-- Settles O3: by the four things a step can be. -/
theorem stepKeepsInvariant : Obligations.StepKeepsInvariant := by
  rintro s t ⟨hbuf, hresp, hwaits⟩ h
  obtain ⟨rest, -, rfl⟩ | ⟨i, -, hi⟩ | ⟨-, -, rfl⟩ | ⟨word, payload, rest, -, -, hword⟩ := step_cases h
  · exact inv_of_fresh rfl rfl rfl
  · exact exec_keeps_inv hi hbuf hresp
  · exact ⟨hbuf, hresp, hwaits⟩
  · obtain ⟨i, -, hi⟩ | ⟨e, -, rfl⟩ := stepWord_cases hword
    · exact exec_keeps_inv hi hbuf hresp
    · exact fail_inv (s := s.accept payload rest) hbuf hresp

end Sys2Proof.Machine
end

section
/-! The views of the store (10_state.md R11, R15). -/

namespace Sys2Proof.Machine

/-- Under the invariant two buffers with the same pointers and the same written bits are the same buffer. -/
theorem buffer_ext {b c : BitBuffer} (hb : b.Inv) (hc : c.Inv) (hused : b.used = c.used) (hcursor : b.cursor = c.cursor)
    (hbits : ∀ i < b.used.toNat, bitAt b.store i = bitAt c.store i) : b = c := by
  have hstore : b.store = c.store := store_ext fun i _ => by
    rcases Nat.lt_or_ge i b.used.toNat with hi | hi
    · exact hbits i hi
    · rw [hb.tail hi, hc.tail (hused ▸ hi)]
  obtain ⟨_, _, _⟩ := b
  obtain ⟨_, _, _⟩ := c
  cases hstore; cases hused; cases hcursor
  rfl

/-- The number view read bit by bit: `S[i]` has weight `2^(U-1-i)`. -/
theorem number_testBit (b : BitBuffer) {i : Nat} (hi : i < b.used.toNat) :
    b.number.testBit (b.used.toNat - 1 - i) = bitAt b.store i := by
  rw [BitBuffer.number, bitRead_testBit, decide_eq_true (by omega), Bool.true_and]
  congr 1
  omega

/-- Settles O24: the number's bits are the written bits, and the invariant gives the others. -/
theorem numberViewDeterminesBuffer : Obligations.NumberViewDeterminesBuffer := by
  refine fun b c hb hc => ⟨bitRead_lt _ _ _, fun hnumber hused hcursor => ?_⟩
  refine buffer_ext hb hc hused hcursor fun i hi => ?_
  rw [← number_testBit b hi, ← number_testBit c (hused ▸ hi), hnumber, hused]

/-- Settles O25: bit `7-j` of the number read from bit `8k` on is the `j`-th bit read. -/
theorem byteViewOfStore : Obligations.ByteViewOfStore := by
  intro S k j _ hj
  have hlt : 7 - j < 8 := by omega
  rw [storeByte, BitVec.getLsbD_ofNat, bitRead_testBit]
  simp only [hlt, decide_true, Bool.true_and]
  congr 2
  omega

end Sys2Proof.Machine
end

section
/-! What commands leave unchanged (10_state.md R12, R13, R17). -/

namespace Sys2Proof.Machine

/-- Every command but SETREC and DECCFG leaves the record registers alone (10_state.md R17). -/
theorem exec_keeps_recs {i : Instr} {s t : State} (h : exec i s = .next t) (hset : ∀ r v, i ≠ .setRec r v)
    (hdec : ∀ n, i ≠ .decCfg n) : t.recs = s.recs := by
  cases i with
  | clear => cases h; rfl
  | addField w v => obtain ⟨b, -, rfl⟩ | ⟨e, rfl⟩ := exec_addField_cases h <;> rfl
  | extract w => obtain ⟨r, b, -, rfl⟩ | ⟨e, rfl⟩ := exec_extract_cases h <;> rfl
  | toSeptets => cases h; rfl
  | fromSeptets n =>
    obtain rfl | ⟨payload, rest, -, -, rfl | ⟨b, -, rfl⟩⟩ := exec_fromSeptets_cases h <;> rfl
  | setRec r v => exact absurd rfl (hset r v)
  | getRec r => exact (exec_getRec_frame h).2
  | encCfg =>
    obtain ⟨b, hb, -⟩ := exec_encCfg s
    cases hb.symm.trans h; rfl
  | decCfg n => exact absurd rfl (hdec n)
  | encVer v =>
    obtain ⟨b, hb, -⟩ := exec_encVer v s
    cases hb.symm.trans h; rfl
  | decVer n => exact exec_decVer_recs h

/-- Settles O55: any other command keeps the registers. -/
theorem onlySetRecAndDecCfgWriteRegisters : Obligations.OnlySetRecAndDecCfgWriteRegisters := by
  intro i s t h hne
  by_contra hother
  rw [not_or] at hother
  obtain ⟨hset, hdec⟩ := hother
  exact hne (exec_keeps_recs h (fun r v hi => hset ⟨r, v, hi⟩) (fun n hi => hdec ⟨n, hi⟩))

theorem exec_toSeptets_buf {s t : State} (h : exec .toSeptets s = .next t) : t.buf = s.buf := by
  cases h; rfl

/-- EXTRACT moves only the cursor (40_bitbuffer_ops.md R82). -/
theorem exec_extract_frame {w : WField} {s t : State} (h : exec (.extract w) s = .next t) :
    t.buf.store = s.buf.store ∧ t.buf.used = s.buf.used := by
  obtain ⟨r, b, hx, rfl⟩ | ⟨e, rfl⟩ := exec_extract_cases h
  · obtain ⟨-, hstore, hused, -⟩ := extract_ok hx
    exact ⟨hstore, hused⟩
  · exact ⟨rfl, rfl⟩

/-- ADDFIELD leaves the cursor where it is (40_bitbuffer_ops.md R81). -/
theorem exec_addField_cursor {w : WField} {v : Half} {s t : State} (h : exec (.addField w v) s = .next t) :
    t.buf.cursor = s.buf.cursor := by
  obtain ⟨b, hb, rfl⟩ | ⟨e, rfl⟩ := exec_addField_cases h
  · obtain ⟨-, -, -, hcursor, -⟩ := addField_ok hb
    exact hcursor
  · rfl

/-- Settles O56: EXTRACT and ADDFIELD by their frames, the others because they keep the whole buffer. -/
theorem readersLeaveStoreAndPointers : Obligations.ReadersLeaveStoreAndPointers := by
  intro i s t h
  constructor
  · rintro (⟨w, rfl⟩ | rfl | ⟨r, v, rfl⟩ | ⟨r, rfl⟩)
    · exact exec_extract_frame h
    · rw [exec_toSeptets_buf h]; exact ⟨rfl, rfl⟩
    · rw [exec_setRec_buf h]; exact ⟨rfl, rfl⟩
    · rw [(exec_getRec_frame h).1]; exact ⟨rfl, rfl⟩
  · rintro (⟨w, v, rfl⟩ | rfl | ⟨r, v, rfl⟩ | ⟨r, rfl⟩)
    · exact exec_addField_cursor h
    · rw [exec_toSeptets_buf h]
    · rw [exec_setRec_buf h]
    · rw [(exec_getRec_frame h).1]

end Sys2Proof.Machine
end

section
/-! Sequences of commands (20_memory.md R41): one after another, a run of ADDFIELDs, a run of EXTRACTs. -/

namespace Sys2Proof.Machine

theorem execAll_cons {i : Instr} {is : List Instr} {s t : State} (h : exec i s = .next t) :
    execAll (i :: is) s = execAll is t := by
  rw [execAll, h]

theorem execAll_append {is js : List Instr} {s t : State} (h : execAll is s = .next t) :
    execAll (is ++ js) s = execAll js t := by
  induction is generalizing s with
  | nil => cases h; rfl
  | cons i is ih =>
    obtain ⟨s', hs, -⟩ := exec_cases i s
    rw [execAll_cons hs] at h
    rw [List.cons_append, execAll_cons hs, ih h]

/-- A command returns at most one response. -/
theorem exec_responses {i : Instr} {s t : State} (h : exec i s = .next t) :
    ∃ rs, t.responses = s.responses ++ rs ∧ rs.length ≤ 1 := by
  obtain ⟨t', ht, ⟨-, -, rfl⟩ | ⟨-, hend⟩⟩ := exec_cases i s <;> cases ht.symm.trans h
  · exact ⟨[], by simp, by simp⟩
  · obtain ⟨r, hr, -⟩ := hend.replied
    exact ⟨[r], hr.1, by simp⟩

/-- A sequence returns at most one response per command. -/
theorem execAll_responses {is : List Instr} {s t : State} (h : execAll is s = .next t) :
    ∃ rs, t.responses = s.responses ++ rs ∧ rs.length ≤ is.length := by
  induction is generalizing s with
  | nil => cases h; exact ⟨[], by simp, by simp⟩
  | cons i is ih =>
    obtain ⟨s', hs, -⟩ := exec_cases i s
    rw [execAll_cons hs] at h
    obtain ⟨rs, hrs, hlen⟩ := ih h
    obtain ⟨qs, hqs, hone⟩ := exec_responses hs
    exact ⟨qs ++ rs, by rw [hrs, hqs, List.append_assoc], by simp; omega⟩

/-- The bits of some fields, laid end to end (30_encoding.md R63). -/
def packedBits (fs : List (WField × Half)) : List Bool := fs.flatMap fun f => fieldBits f.1.toNat f.2

@[simp] theorem packedBits_nil : packedBits [] = [] := rfl

@[simp] theorem packedBits_cons (f : WField × Half) (fs : List (WField × Half)) :
    packedBits (f :: fs) = fieldBits f.1.toNat f.2 ++ packedBits fs := rfl

@[simp] theorem widthSum_nil : widthSum [] = 0 := rfl

@[simp] theorem widthSum_cons (w : WField) (ws : List WField) : widthSum (w :: ws) = w.toNat + widthSum ws := by
  simp [widthSum]

@[simp] theorem packedBits_length (fs : List (WField × Half)) : (packedBits fs).length = widthSum (fs.map Prod.fst) := by
  induction fs with
  | nil => rfl
  | cons f fs ih => simp [ih]

/-- The value a field gives back when it is read: the value written, cut to its width (40_bitbuffer_ops.md R81, R82). -/
def fieldResponse (f : WField × Half) : Response := ⟨.ok, BitVec.ofNat 16 (f.2.toNat % 2 ^ f.1.toNat), []⟩

theorem exec_addField_ok {w : WField} {v : Half} {s : State} {b : BitBuffer} (h : s.buf.addField w.toNat v = .ok b) :
    exec (.addField w v) s = .next ((s.withBuf b).respond .ok 0 []) := by
  simp only [exec, execAddField, h, goOn]

theorem exec_extract_ok {w : WField} {s : State} {r : Half} {b : BitBuffer} (h : s.buf.extract w.toNat = .ok (r, b)) :
    exec (.extract w) s = .next ((s.withBuf b).respond .ok r []) := by
  simp only [exec, execExtract, h, goOn]

/-- ADDFIELDs that fit append their fields' bits and leave the cursor, the registers and the channel alone. -/
theorem execAll_addFields {fs : List (WField × Half)} {s : State} (hw : ∀ f ∈ fs, f.1.toNat ≤ 16)
    (hroom : s.buf.used.toNat + widthSum (fs.map Prod.fst) ≤ 128) :
    ∃ t, execAll (addFields fs) s = .next t ∧ t.responses = s.responses ++ List.replicate fs.length okEmpty ∧
      t.buf.bits = s.buf.bits ++ packedBits fs ∧ t.buf.cursor = s.buf.cursor ∧ t.recs = s.recs ∧ t.din = s.din := by
  induction fs generalizing s with
  | nil => exact ⟨s, rfl, by simp, by simp, rfl, rfl, rfl⟩
  | cons f fs ih =>
    obtain ⟨hwf, hws⟩ := List.forall_mem_cons.mp hw
    simp only [List.map_cons, widthSum_cons] at hroom
    obtain ⟨b, hb⟩ := addField_succeeds (b := s.buf) f.2 hwf (by omega)
    obtain ⟨-, -, hused, hcursor, -⟩ := addField_ok hb
    obtain ⟨t, ht, hresp, hbits, hcur, hrecs, hdin⟩ :=
      ih (s := (s.withBuf b).respond .ok 0 []) hws (by simp only [respond_buf, withBuf_buf, hused]; omega)
    refine ⟨t, (execAll_cons (exec_addField_ok hb)).trans ht, ?_, ?_, hcur.trans hcursor, hrecs, hdin⟩
    · rw [hresp]
      simp [okEmpty, List.replicate_succ]
    · rw [hbits]
      simp [addField_bits hb]

/-- EXTRACT of the width of a field that stands at the cursor gives that field's value back and moves to its end. -/
theorem extract_field {b : BitBuffer} {f : WField × Half} {pre post : List Bool} (hw : f.1.toNat ≤ 16)
    (hbits : b.bits = pre ++ (fieldBits f.1.toNat f.2 ++ post)) (hcursor : b.cursor.toNat = pre.length) :
    ∃ b', b.extract f.1.toNat = .ok (BitVec.ofNat 16 (f.2.toNat % 2 ^ f.1.toNat), b') ∧ b'.bits = b.bits ∧
      b'.cursor.toNat = pre.length + f.1.toNat := by
  have hfits : b.cursor.toNat + f.1.toNat ≤ b.used.toNat := by
    rw [← bits_length b, hbits, hcursor]
    simp
  have hread : bitRead b.store b.cursor.toNat f.1.toNat = f.2.toNat % 2 ^ f.1.toNat := by
    rw [bitRead_eq_numOf hfits, hbits, hcursor, List.drop_left, List.take_left' (fieldBits_length _ _), numOf_fieldBits]
  have hx := extract_fits hw hfits
  rw [hread] at hx
  refine ⟨_, hx, rfl, ?_⟩
  have hlt := b.used.isLt
  rw [BitVec.toNat_ofNat, Nat.mod_eq_of_lt (by omega), hcursor]

/-- EXTRACTs of the widths of some fields that stand at the cursor give those fields back in order (40_bitbuffer_ops.md R83). -/
theorem execAll_extracts_fields {fs : List (WField × Half)} {s : State} {pre post : List Bool}
    (hw : ∀ f ∈ fs, f.1.toNat ≤ 16) (hbits : s.buf.bits = pre ++ (packedBits fs ++ post))
    (hcursor : s.buf.cursor.toNat = pre.length) :
    ∃ t, execAll (extracts (fs.map Prod.fst)) s = .next t ∧ t.responses = s.responses ++ fs.map fieldResponse ∧
      t.buf.bits = s.buf.bits ∧ t.buf.cursor.toNat = pre.length + widthSum (fs.map Prod.fst) ∧
      t.recs = s.recs ∧ t.din = s.din := by
  induction fs generalizing s pre with
  | nil => exact ⟨s, rfl, by simp, rfl, hcursor, rfl, rfl⟩
  | cons f fs ih =>
    obtain ⟨hwf, hws⟩ := List.forall_mem_cons.mp hw
    rw [packedBits_cons, List.append_assoc] at hbits
    obtain ⟨b, hb, hsame, hcur⟩ := extract_field hwf hbits hcursor
    obtain ⟨t, ht, hresp, htbits, htcur, hrecs, hdin⟩ :=
      ih (s := (s.withBuf b).respond .ok _ []) (pre := pre ++ fieldBits f.1.toNat f.2) hws
        (by simp [hsame, hbits]) (by simpa using hcur)
    refine ⟨t, (execAll_cons (exec_extract_ok hb)).trans ht, ?_, htbits.trans hsame, ?_, hrecs, hdin⟩
    · rw [hresp]
      simp [fieldResponse]
    · rw [htcur]
      simp [Nat.add_assoc]

end Sys2Proof.Machine
end

section
/-! Conforming blocks (10_state.md R16). -/

namespace Sys2Proof.Machine

/-- A conforming pack: the payload out carries the bits of the fields, laid end to end, and pads the last septet with zeros. -/
theorem execAll_pack {fs : List (WField × Half)} (s : State) (hw : ∀ f ∈ fs, f.1.toNat ≤ 16)
    (hroom : widthSum (fs.map Prod.fst) ≤ 128) :
    ∃ t out, execAll (.clear :: (addFields fs ++ [.toSeptets])) s = .next t ∧
      t.responses = s.responses ++ List.replicate (fs.length + 1) okEmpty ++ [⟨.ok, 0, out⟩] ∧
      out.length = (widthSum (fs.map Prod.fst) + 6) / 7 ∧ ∃ pad, septetBits out = packedBits fs ++ pad := by
  obtain ⟨t, ht, hresp, hbits, -⟩ :=
    execAll_addFields (s := (s.withBuf s.buf.clear).respond .ok 0 []) hw (by simpa using hroom)
  have hbits : t.buf.bits = packedBits fs := hbits
  have hused : t.buf.used.toNat = widthSum (fs.map Prod.fst) := by
    rw [← bits_length, hbits, packedBits_length]
  refine ⟨t.respond .ok 0 t.buf.toSeptets, t.buf.toSeptets, ?_, ?_, by rw [toSeptets_length, hused], _,
    by rw [septetBits_toSeptets, hbits]⟩
  · exact (execAll_cons rfl).trans (execAll_append ht)
  · rw [respond_responses, hresp]
    simp [okEmpty, List.replicate_succ]

/-- A conforming unpack of a stream that begins with the bits of some fields gives those fields back, on any block. -/
theorem execAll_unpack {fs : List (WField × Half)} {q : State} {n : Half} {payload rest : List Byte} {pad : List Bool}
    (hd : q.din = payload ++ rest) (hl : payload.length = n.toNat) (hfits : 7 * payload.length ≤ 128)
    (hw : ∀ f ∈ fs, f.1.toNat ≤ 16) (hbits : septetBits payload = packedBits fs ++ pad) :
    ∃ u, execAll (.fromSeptets n :: extracts (fs.map Prod.fst)) q = .next u ∧
      u.responses = q.responses ++ okEmpty :: fs.map fieldResponse := by
  obtain ⟨b, hb⟩ := fromSeptets_succeeds q.buf hfits
  obtain ⟨-, -, hcursor, -⟩ := fromSeptets_ok hb
  obtain ⟨u, hu, hresp, -⟩ :=
    execAll_extracts_fields (s := (({ q with din := rest } : State).withBuf b).respond .ok 0 []) (pre := []) hw
      ((fromSeptets_bits hb).trans hbits) (by simp [hcursor])
  refine ⟨u, (execAll_cons (exec_fromSeptets hd hl hb)).trans hu, ?_⟩
  rw [hresp]
  simp [okEmpty]

/-- Settles O33: a pack of at most 126 bits gives at most 18 septets, which any block takes. -/
theorem packedFieldsUnpackOnAnotherBlock : Obligations.PackedFieldsUnpackOnAnotherBlock := by
  intro s fs hw hsum
  obtain ⟨t, out, ht, hresp, hlen, pad, hbits⟩ := execAll_pack s hw (by omega)
  refine ⟨t, out, ht, hresp, fun q n rest hd hn => ?_⟩
  exact execAll_unpack hd hn.symm (by omega) hw hbits

/-- Both commands go on, to states that differ in the buffer at most. -/
def AgreeOffBuffer (o o' : Host.Outcome State Fault Refusal) : Prop := ∃ t c, o = .next t ∧ o' = .next (t.withBuf c)

theorem exec_decCfg_agree (n : Half) (s : State) (b : BitBuffer) :
    AgreeOffBuffer (exec (.decCfg n) s) (exec (.decCfg n) (s.withBuf b)) := by
  obtain hd | ⟨payload, rest, hd, hl, hn | hn⟩ := payload_cases n s
  · exact ⟨_, b, exec_waits hd, exec_waits (s := s.withBuf b) hd⟩
  · exact ⟨_, b, (exec_decode_long hd hl hn).1, (exec_decode_long (s := s.withBuf b) hd hl hn).1⟩
  · obtain ⟨c, hc⟩ := fromSeptets_succeeds s.buf.clear hn
    obtain ⟨r, c', hr, -⟩ := unpackRecord_total (List.finRange 14) c s.recs
    exact ⟨_, c', exec_decCfg hd hl hc hr, exec_decCfg (s := s.withBuf b) hd hl hc hr⟩

theorem exec_decVer_agree (n : Half) (s : State) (b : BitBuffer) :
    AgreeOffBuffer (exec (.decVer n) s) (exec (.decVer n) (s.withBuf b)) := by
  obtain hd | ⟨payload, rest, hd, hl, hn | hn⟩ := payload_cases n s
  · exact ⟨_, b, exec_waits hd, exec_waits (s := s.withBuf b) hd⟩
  · exact ⟨_, b, (exec_decode_long hd hl hn).2, (exec_decode_long (s := s.withBuf b) hd hl hn).2⟩
  · obtain ⟨c, hc⟩ := fromSeptets_succeeds s.buf.clear hn
    obtain ⟨r, c', hx⟩ := extract_succeeds (b := c) (w := 16) le_rfl
    exact ⟨_, c', exec_decVer hd hl hc hx, exec_decVer (s := s.withBuf b) hd hl hc hx⟩

/-- A layer-2 command gives the same response and registers over any buffer (42_schema_codec.md R132). -/
theorem exec_layer2_agree {i : Instr} (h : isLayer2 i = true) (s : State) (b : BitBuffer) :
    AgreeOffBuffer (exec i s) (exec i (s.withBuf b)) := by
  cases i with
  | clear | addField | extract | toSeptets | fromSeptets => cases h
  | setRec r v =>
    simp only [exec, execSetRec]
    split <;> exact ⟨_, b, rfl, rfl⟩
  | getRec r =>
    simp only [exec, execGetRec]
    split <;> exact ⟨_, b, rfl, rfl⟩
  | encCfg =>
    obtain ⟨c, hc, hpack⟩ := exec_encCfg s
    obtain ⟨c', hc', hpack'⟩ := exec_encCfg (s.withBuf b)
    cases hpack.symm.trans hpack'
    exact ⟨_, c, hc, hc'⟩
  | decCfg n => exact exec_decCfg_agree n s b
  | encVer v =>
    obtain ⟨c, hc, hadd⟩ := exec_encVer v s
    obtain ⟨c', hc', hadd'⟩ := exec_encVer v (s.withBuf b)
    cases hadd.symm.trans hadd'
    exact ⟨_, c, hc, hc'⟩
  | decVer n => exact exec_decVer_agree n s b

/-- A FROMSEPTETS that answers `OK` at the head of a sequence hides the buffer before it: it did not wait, for then a
response would be missing, and it did not fail (41_septet_ops.md R104, D11). -/
theorem execAll_fromSeptets_withBuf {n : Half} {is : List Instr} {s t : State} {rs : List Response} (b : BitBuffer)
    (h : execAll (.fromSeptets n :: is) s = .next t) (hrs : t.responses = s.responses ++ rs)
    (hlen : rs.length = is.length + 1) (hok : ∀ r ∈ rs, r.status = .ok) :
    execAll (.fromSeptets n :: is) (s.withBuf b) = .next t := by
  obtain ⟨s', hs, -⟩ := exec_cases (.fromSeptets n) s
  rw [execAll_cons hs] at h
  obtain ⟨qs, hqs, hle⟩ := execAll_responses h
  obtain rfl | ⟨payload, rest, hd, hl, rfl | ⟨c, hc, rfl⟩⟩ := exec_fromSeptets_cases hs
  · have hsame : rs = qs := List.append_cancel_left (hrs.symm.trans hqs)
    rw [hsame] at hlen
    omega
  · have hsame : rs = ⟨.errCapacity, 0, []⟩ :: qs :=
      List.append_cancel_left (hrs.symm.trans (by rw [hqs]; simp))
    simp [hsame] at hok
  · exact (execAll_cons (exec_fromSeptets (s := s.withBuf b) hd hl hc)).trans h

/-- CLEAR at the head of a sequence hides the buffer before it (40_bitbuffer_ops.md R80). -/
theorem execAll_clear_withBuf (is : List Instr) (s : State) (b : BitBuffer) :
    execAll (.clear :: is) (s.withBuf b) = execAll (.clear :: is) s := rfl

/-- Settles O59: by the form of the block. CLEAR or FROMSEPTETS replaces the old buffer, a layer-2 command does not look at it. -/
theorem conformingBlockIgnoresOldBuffer : Obligations.ConformingBlockIgnoresOldBuffer := by
  intro packed is s t rs b hblock h hrs hlen hok
  cases hblock with
  | pack fs => exact ⟨t, (execAll_clear_withBuf _ s b).trans h, rfl, rfl⟩
  | unpack n ws hws => exact ⟨t, execAll_fromSeptets_withBuf b h hrs hlen hok, rfl, rfl⟩
  | unpackCleared n ws hws => exact ⟨t, (execAll_clear_withBuf _ s b).trans h, rfl, rfl⟩
  | layer2 i hi =>
    obtain ⟨t', c, ht, ht'⟩ := exec_layer2_agree hi s b
    cases (execAll_cons (is := []) ht).symm.trans h
    exact ⟨t.withBuf c, execAll_cons ht', rfl, rfl⟩

end Sys2Proof.Machine
end

section
/-! Commands issued twice (20_memory.md R38). -/

namespace Sys2Proof.Machine

/-- A second FROMSEPTETS with the same payload meets the same fate as the first: both fail and keep the buffer, or both load it
(41_septet_ops.md R104). -/
theorem exec_fromSeptets_twice {n : Half} {s : State} {payload rest : List Byte} (hd : s.din = payload ++ payload ++ rest)
    (hl : payload.length = n.toNat) :
    ∃ t u r, exec (.fromSeptets n) s = .next t ∧ exec (.fromSeptets n) t = .next u ∧ u.buf = t.buf ∧ u.recs = t.recs ∧
      u.responses = s.responses ++ [r, r] := by
  rw [List.append_assoc] at hd
  rcases Nat.lt_or_ge 128 (7 * n.toNat) with hlong | hfits
  · exact ⟨_, _, failed .errCapacity, exec_fromSeptets_long hd hl hlong, exec_fromSeptets_long rfl hl hlong, rfl, rfl,
      List.append_assoc ..⟩
  · obtain ⟨b, hb⟩ := fromSeptets_succeeds s.buf (bytes := payload) (by omega)
    exact ⟨_, _, okEmpty, exec_fromSeptets hd hl hb, exec_fromSeptets rfl hl ((fromSeptets_any b s.buf payload).trans hb),
      rfl, rfl, List.append_assoc ..⟩

/-- Settles O57: CLEAR leaves the fresh buffer whatever it found, TOSEPTETS leaves the buffer it reads, and FROMSEPTETS does not
look at the old one. -/
theorem repeatableCommands : Obligations.RepeatableCommands := by
  refine ⟨fun s => ⟨_, _, rfl, rfl, rfl, rfl⟩, fun s => ⟨_, _, s.buf.toSeptets, rfl, rfl, ?_⟩,
    fun s n payload rest hd hl => exec_fromSeptets_twice hd hl⟩
  rw [respond_responses, respond_responses, respond_buf, List.append_assoc]
  rfl

end Sys2Proof.Machine
end

section
/-! The command word as a number and bit by bit (30_encoding.md R51, R61). -/

namespace Sys2Proof

theorem opField_toNat (word : CmdWord) : (opField word).toNat = word.toNat / 2 ^ 28 := by
  have := word.isLt
  rw [opField, BitVec.extractLsb'_toNat, Nat.shiftRight_eq_div_pow, Nat.mod_eq_of_lt (by omega)]

theorem zField_toNat (word : CmdWord) : (zField word).toNat = word.toNat / 2 ^ 21 % 2 ^ 7 := by
  rw [zField, BitVec.extractLsb'_toNat, Nat.shiftRight_eq_div_pow]

theorem wField_toNat (word : CmdWord) : (wField word).toNat = word.toNat / 2 ^ 16 % 2 ^ 5 := by
  rw [wField, BitVec.extractLsb'_toNat, Nat.shiftRight_eq_div_pow]

theorem vField_toNat (word : CmdWord) : (vField word).toNat = word.toNat % 2 ^ 16 := by
  rw [vField, BitVec.extractLsb'_toNat, Nat.shiftRight_zero]

theorem packWord_toNat (op : BitVec 4) (w : WField) (v : Half) :
    (packWord op w v).toNat = op.toNat * 2 ^ 28 + w.toNat * 2 ^ 16 + v.toNat := by
  have hop := opField_toNat (packWord op w v)
  have hz := zField_toNat (packWord op w v)
  have hw := wField_toNat (packWord op w v)
  have hv := vField_toNat (packWord op w v)
  rw [opField_packWord] at hop
  rw [zField_packWord, show (0 : BitVec 7).toNat = 0 from rfl] at hz
  rw [wField_packWord] at hw
  rw [vField_packWord] at hv
  omega

/-- Words with the same four fields are the same word. -/
theorem word_ext {x y : CmdWord} (hop : opField x = opField y) (hz : zField x = zField y) (hw : wField x = wField y)
    (hv : vField x = vField y) : x = y := by
  have hop := congrArg BitVec.toNat hop
  have hz := congrArg BitVec.toNat hz
  have hw := congrArg BitVec.toNat hw
  have hv := congrArg BitVec.toNat hv
  simp only [opField_toNat, zField_toNat, wField_toNat, vField_toNat] at hop hz hw hv
  exact BitVec.eq_of_toNat_eq (by omega)

@[simp] theorem opField_and (x y : CmdWord) : opField (x &&& y) = opField x &&& opField y := BitVec.extractLsb'_and

@[simp] theorem zField_and (x y : CmdWord) : zField (x &&& y) = zField x &&& zField y := BitVec.extractLsb'_and

@[simp] theorem wField_and (x y : CmdWord) : wField (x &&& y) = wField x &&& wField y := BitVec.extractLsb'_and

@[simp] theorem vField_and (x y : CmdWord) : vField (x &&& y) = vField x &&& vField y := BitVec.extractLsb'_and

/-- Mask and match, field by field (30_encoding.md R52). -/
theorem and_eq_iff_fields (word mask pattern : CmdWord) :
    word &&& mask = pattern ↔
      opField word &&& opField mask = opField pattern ∧ zField word &&& zField mask = zField pattern ∧
        wField word &&& wField mask = wField pattern ∧ vField word &&& vField mask = vField pattern := by
  constructor
  · rintro rfl
    simp
  · rintro ⟨hop, hz, hw, hv⟩
    exact word_ext (by simpa using hop) (by simpa using hz) (by simpa using hw) (by simpa using hv)

end Sys2Proof
end

section
/-! The decoder and the encoder (30_encoding.md R52, R53, R57, R61). -/

namespace Sys2Proof

variable {op : BitVec 4} {w : WField} {v : Half} {word : CmdWord} {i : Instr}

@[simp] theorem decode_packWord (op : BitVec 4) (w : WField) (v : Half) :
    decode (packWord op w v) = decodeOperands op w v := by simp [decode]

/-- A word with a zero `z` field decodes by its operands. -/
theorem decode_of_zField (h : zField word = 0) :
    decode word = decodeOperands (opField word) (wField word) (vField word) := if_neg (not_not.mpr h)

theorem decode_of_zField_ne (h : zField word ≠ 0) : decode word = .error .zNotZero := if_pos h

/-- A legal command is decoded from its own word; each row's arm answers its command once the range test is passed. -/
theorem decode_encode (h : i.wf = true) : decode (encode i) = .ok i := by
  cases i <;> rw [encode, decode_packWord] <;> simp_all [decodeOperands, Instr.wf]

/-- A command beyond the range limits has a word that the decoder refuses (30_encoding.md R53). -/
theorem decode_encode_of_not_wf (h : i.wf = false) : ∃ e, decode (encode i) = .error e := by
  cases i <;> rw [encode, decode_packWord] <;> simp_all [decodeOperands, Instr.wf]

/-- What an accepting arm answers is the legal command whose word those fields make up. -/
theorem encode_of_decodeOperands (h : decodeOperands op w v = .ok i) : encode i = packWord op w v ∧ i.wf = true := by
  unfold decodeOperands at h
  split at h
  case h_12 => cases h
  all_goals
    next hop =>
      obtain ⟨-, rfl⟩ := BitVec.toNat_eq_nat.mp hop
      split_ifs at h
      cases h
      simp_all [encode, Instr.wf]

theorem encode_decode (h : decode word = .ok i) : encode i = word ∧ i.wf = true := by
  by_cases hz : zField word = 0
  · rw [decode_of_zField hz] at h
    rw [← packWord_fields word hz]
    exact encode_of_decodeOperands h
  · rw [decode_of_zField_ne hz] at h
    cases h

/-- The five cases of an illegal word other than a nonzero `z`, on the fields (30_encoding.md R57). -/
def OperandsIllegal (op : BitVec 4) (w : WField) (v : Half) : Prop :=
  (op.toNat = 0 ∨ 12 ≤ op.toNat) ∨ (w ≠ 0 ∧ op.toNat ∈ [0x1, 0x4, 0x5, 0x8, 0x9, 0xA, 0xB]) ∨
    (v ≠ 0 ∧ op.toNat ∈ [0x1, 0x3, 0x4, 0x7, 0x8]) ∨ ((op.toNat = 0x2 ∨ op.toNat = 0x3) ∧ 16 < w.toNat) ∨
    ((op.toNat = 0x6 ∨ op.toNat = 0x7) ∧ 13 < w.toNat)

theorem widthOk_iff : widthOk w = true ↔ w.toNat ≤ 16 := decide_eq_true_iff

theorem regOk_iff : regOk w = true ↔ w.toNat ≤ 13 := decide_eq_true_iff.trans Nat.lt_succ_iff

theorem widthOk_eq_false_iff : widthOk w = false ↔ 16 < w.toNat := by
  rw [← Bool.not_eq_true, widthOk_iff, Nat.not_le]

theorem regOk_eq_false_iff : regOk w = false ↔ 13 < w.toNat := by
  rw [← Bool.not_eq_true, regOk_iff, Nat.not_le]

theorem decodeOperands_error_iff : (∃ e, decodeOperands op w v = .error e) ↔ OperandsIllegal op w v := by
  unfold decodeOperands OperandsIllegal
  split
  case h_12 =>
    simp only [imp_false] at *
    exact iff_of_true ⟨_, rfl⟩ (.inl (by omega))
  all_goals
    next hop =>
      simp only [hop]
      split_ifs <;> simp_all [widthOk_iff, regOk_iff]

end Sys2Proof

namespace Sys2Proof.Machine

theorem illegalWord_iff (word : CmdWord) :
    IllegalWord word ↔ zField word ≠ 0 ∨ OperandsIllegal (opField word) (wField word) (vField word) := by
  have hz : zField word ≠ 0 ↔ (zField word).toNat ≠ 0 := by simp [BitVec.toNat_eq]
  have hw : wField word ≠ 0 ↔ (wField word).toNat ≠ 0 := by simp [BitVec.toNat_eq]
  have hv : vField word ≠ 0 ↔ (vField word).toNat ≠ 0 := by simp [BitVec.toNat_eq]
  unfold IllegalWord OperandsIllegal
  rw [hz, hw, hv, opField_toNat, zField_toNat, wField_toNat, vField_toNat]
  exact or_left_comm

theorem decode_error_iff (word : CmdWord) : (∃ e, decode word = .error e) ↔ IllegalWord word := by
  rw [illegalWord_iff]
  by_cases hz : zField word = 0
  · simp [decode_of_zField hz, decodeOperands_error_iff, hz]
  · exact iff_of_true ⟨_, decode_of_zField_ne hz⟩ (.inl hz)

theorem decode_ok_iff (word : CmdWord) : (∃ i, decode word = .ok i) ↔ ¬ IllegalWord word := by
  rw [← decode_error_iff]
  cases decode word <;> simp

end Sys2Proof.Machine
end

section
/-! The opcode table row by row (30_encoding.md R52, R53): each mask and match in terms of the fields. -/

namespace Sys2Proof.Machine

/-- A row of R52: its opcode, and whether it shows `w` and `v` as 0. -/
structure TableRow where
  op : BitVec 4
  wZero : Bool
  vZero : Bool

/-- The eleven rows, in the order of R52. -/
def tableRows : List TableRow :=
  [⟨0x1, true, true⟩, ⟨0x2, false, false⟩, ⟨0x3, false, true⟩, ⟨0x4, true, true⟩, ⟨0x5, true, false⟩,
   ⟨0x6, false, false⟩, ⟨0x7, false, true⟩, ⟨0x8, true, true⟩, ⟨0x9, true, false⟩, ⟨0xA, true, false⟩,
   ⟨0xB, true, false⟩]

/-- The mask of a row: `op` and `z` always count, `w` and `v` where the row shows them as 0. -/
def TableRow.mask (r : TableRow) : CmdWord :=
  0xFFE00000 ||| (if r.wZero then 0x001F0000 else 0) ||| (if r.vZero then 0x0000FFFF else 0)

/-- The fields of a word are those of the row. -/
def TableRow.Fits (r : TableRow) (op : BitVec 4) (w : WField) (v : Half) : Prop :=
  op = r.op ∧ (r.wZero = true → w = 0) ∧ (r.vZero = true → v = 0)

/-- The range limits of R53 on the fields. -/
def OperandsInRange (op : BitVec 4) (w : WField) : Prop :=
  ((op.toNat = 2 ∨ op.toNat = 3) → w.toNat ≤ 16) ∧ ((op.toNat = 6 ∨ op.toNat = 7) → w.toNat ≤ 13)

theorem opcodeTable_eq : opcodeTable = tableRows.map fun r => (r.mask, packWord r.op 0 0) := by decide

theorem rangeLimit_iff (word : CmdWord) : rangeLimit word ↔ OperandsInRange (opField word) (wField word) := by
  rw [OperandsInRange, opField_toNat, wField_toNat, rangeLimit]

/-- A word selects a row when `z` is 0 and its other fields are those of the row. -/
theorem and_mask_eq_iff (word : CmdWord) (r : TableRow) :
    word &&& r.mask = packWord r.op 0 0 ↔
      zField word = 0 ∧ r.Fits (opField word) (wField word) (vField word) := by
  obtain ⟨op, wZero, vZero⟩ := r
  have hop : opField (TableRow.mk op wZero vZero).mask = BitVec.allOnes 4 := by decide +revert
  have hz : zField (TableRow.mk op wZero vZero).mask = BitVec.allOnes 7 := by decide +revert
  have hw : wField (TableRow.mk op wZero vZero).mask = if wZero then BitVec.allOnes 5 else 0 := by decide +revert
  have hv : vField (TableRow.mk op wZero vZero).mask = if vZero then BitVec.allOnes 16 else 0 := by decide +revert
  rw [and_eq_iff_fields, hop, hz, hw, hv, TableRow.Fits, opField_packWord, zField_packWord, wField_packWord,
    vField_packWord, BitVec.and_allOnes, BitVec.and_allOnes, and_left_comm]
  cases wZero <;> cases vZero <;> simp only [if_true, if_false, Bool.false_eq_true, BitVec.and_allOnes] <;> simp

theorem selects_row_iff (word : CmdWord) :
    (∃ row ∈ opcodeTable, word &&& row.1 = row.2) ↔
      zField word = 0 ∧ ∃ r ∈ tableRows, r.Fits (opField word) (wField word) (vField word) := by
  simp only [opcodeTable_eq, List.mem_map, exists_exists_and_eq_and, and_mask_eq_iff]
  tauto

theorem tableRow_op_bounds : ∀ r ∈ tableRows, 1 ≤ r.op.toNat ∧ r.op.toNat ≤ 11 := by decide

/-- No two rows have the same opcode. -/
theorem tableRow_eq_of_op {r q : TableRow} (hr : r ∈ tableRows) (hq : q ∈ tableRows) (h : r.op = q.op) : r = q :=
  List.inj_on_of_nodup_map (show (tableRows.map TableRow.op).Nodup by decide) hr hq h

/-- The decoder's arms are the rows of the table with their range limits. -/
theorem decodeOperands_ok_iff (op : BitVec 4) (w : WField) (v : Half) :
    (∃ i, decodeOperands op w v = .ok i) ↔ (∃ r ∈ tableRows, r.Fits op w v) ∧ OperandsInRange op w := by
  unfold decodeOperands
  split
  case h_12 =>
    simp only [imp_false] at *
    refine iff_of_false (by simp) ?_
    rintro ⟨⟨r, hr, rfl, -⟩, -⟩
    have := tableRow_op_bounds r hr
    omega
  all_goals
    next hop =>
      obtain ⟨-, rfl⟩ := BitVec.toNat_eq_nat.mp hop
      split_ifs <;> simp_all [tableRows, TableRow.Fits, OperandsInRange, widthOk_iff, regOk_iff]

theorem decode_ok_iff_row (word : CmdWord) :
    (∃ i, decode word = .ok i) ↔ (∃ row ∈ opcodeTable, word &&& row.1 = row.2) ∧ rangeLimit word := by
  rw [selects_row_iff, rangeLimit_iff]
  by_cases hz : zField word = 0
  · rw [decode_of_zField hz, decodeOperands_ok_iff, and_iff_right hz]
  · rw [decode_of_zField_ne hz]
    exact iff_of_false (by simp) fun h => hz h.1.1

theorem row_unique {word : CmdWord} {a b : CmdWord × CmdWord} (ha : a ∈ opcodeTable) (hb : b ∈ opcodeTable)
    (hsa : word &&& a.1 = a.2) (hsb : word &&& b.1 = b.2) : a = b := by
  rw [opcodeTable_eq, List.mem_map] at ha hb
  obtain ⟨r, hr, rfl⟩ := ha
  obtain ⟨q, hq, rfl⟩ := hb
  obtain ⟨-, hopr, -⟩ := (and_mask_eq_iff word r).mp hsa
  obtain ⟨-, hopq, -⟩ := (and_mask_eq_iff word q).mp hsb
  rw [tableRow_eq_of_op hr hq (hopr.symm.trans hopq)]

end Sys2Proof.Machine
end

section
/-! The statements about the encoding (30_encoding.md R51 to R53, R56, R57, R61). -/

namespace Sys2Proof.Machine

/-- Settles O11: each row's arm gives its command back, the range test being what well-formedness says. -/
theorem decodeOfEncodeIsIdentity : Obligations.DecodeOfEncodeIsIdentity := fun _ => decode_encode

/-- Settles O12: a word with a zero `z` field is its other three fields, from which an accepting arm makes its command. -/
theorem encodeOfDecodeIsIdentity : Obligations.EncodeOfDecodeIsIdentity := fun _ _ => encode_decode

/-- Settles O13: `z` first, then the arms of the decoder against the other five cases. -/
theorem decoderRefusesExactlyIllegalWords : Obligations.DecoderRefusesExactlyIllegalWords := decode_error_iff

/-- Settles O14: the arms of the decoder are the rows of the table, and rows differ in their opcodes. -/
theorem legalWordsSelectOneTableRow : Obligations.LegalWordsSelectOneTableRow :=
  ⟨decode_ok_iff_row, fun _ _ ha _ hb => row_unique ha hb⟩

/-- Settles O15: the number of a word is the sum of its fields at their places. -/
theorem encodingsFollowAssemblerTable : Obligations.EncodingsFollowAssemblerTable := by
  refine ⟨?_, ?_, ?_, ?_, ?_, ?_, ?_, ?_, ?_, ?_, ?_⟩ <;> intros <;> simp [encode, packWord_toNat]

/-- A word of the table's numbering that is the word of a legal command decodes to it. -/
theorem decodeTableWord_eq {nbits n : Nat} {i : Instr} (h : tableWord nbits n = encode i) (hwf : i.wf = true) :
    decodeTableWord nbits n = some i := by
  rw [decodeTableWord, h, decode_encode hwf]
  rfl

/-- Settles O17: each of the eleven words is the word of its command. -/
theorem specWordsDecode : Obligations.SpecWordsDecode := by
  refine ⟨?_, ?_, ?_, ?_, ?_, ?_, ?_, ?_, ?_, ?_, ?_⟩ <;> exact decodeTableWord_eq (by decide) (by decide)

/-- The payload count of a command, off its own word (30_encoding.md R56). -/
theorem payloadCount_eq (i : Instr) :
    payloadCount i =
      if (opField (encode i)).toNat = 0x5 ∨ (opField (encode i)).toNat = 0x9 ∨ (opField (encode i)).toNat = 0xB
      then (vField (encode i)).toNat else 0 := by
  cases i <;> simp [payloadCount, encode]

end Sys2Proof.Machine
end

section
/-! A command word that the host issues to a block with no command waiting (30_encoding.md R57, R60). -/

namespace Sys2Proof.Machine

section
variable {s : State} {word : CmdWord} {payload : List Byte} {rest : List HostMove}

theorem step_command (hbusy : s.busy = none) (hhost : s.host = .command word payload :: rest) :
    step s = stepWord word (s.accept payload rest) := by
  simp only [step, hhost, hbusy]

theorem stepWord_legal {i : Instr} (h : decode word = .ok i) : stepWord word s = exec i s := by
  simp only [stepWord, h]

theorem stepWord_illegal (h : IllegalWord word) : stepWord word s = .next (s.fail .errIllegal) := by
  obtain ⟨e, he⟩ := (decode_error_iff word).mpr h
  simp only [stepWord, he]

theorem step_illegal (hbusy : s.busy = none) (hhost : s.host = .command word payload :: rest)
    (h : IllegalWord word) : step s = .next ((s.accept payload rest).fail .errIllegal) :=
  (step_command hbusy hhost).trans (stepWord_illegal h)

end

/-- Settles O4: the step takes the word, and the word is performed as the command it decodes to. -/
theorem stepRunsIssuedCommand : Obligations.StepRunsIssuedCommand :=
  fun _ _ _ _ _ hbusy hhost hdecode => (step_command hbusy hhost).trans (stepWord_legal hdecode)

/-- Settles O5: the decoder refuses the word, so the step is a failure on the state that has taken it. -/
theorem illegalWordFailsWithoutEffect : Obligations.IllegalWordFailsWithoutEffect :=
  fun _ _ _ _ hbusy hhost h => ⟨_, step_illegal hbusy hhost h, rfl, rfl, rfl, rfl, rfl, rfl⟩

/-- Settles O16: a legal word is the word of its command, off which the count is read; a failure leaves the channel alone. -/
theorem payloadCountIsReadOffTheWord : Obligations.PayloadCountIsReadOffTheWord := by
  refine ⟨fun word i h => ?_, fun s word payload rest hbusy hhost h => ⟨_, step_illegal hbusy hhost h, rfl, rfl⟩⟩
  obtain ⟨rfl, -⟩ := encode_decode h
  rw [← opField_toNat, ← vField_toNat]
  exact payloadCount_eq i

end Sys2Proof.Machine
end

section
/-! Operands out of range (30_encoding.md R53, 60_exceptions.md R157) and the ports of a response (30_encoding.md R58, R59). -/

namespace Sys2Proof.Machine

/-- A command beyond the range limits fails as the illegal word it is, whatever the state (60_exceptions.md R157). -/
theorem exec_of_not_wf {i : Instr} (h : i.wf = false) (s : State) : exec i s = .next (s.fail .errIllegal) := by
  cases i with
  | addField w v =>
    have hw : 16 < w.toNat := widthOk_eq_false_iff.mp h
    simp [exec, execAddField, BitBuffer.addField, hw]
  | extract w =>
    have hw : 16 < w.toNat := widthOk_eq_false_iff.mp h
    simp [exec, execExtract, BitBuffer.extract, hw]
  | setRec r v => simp only [exec, execSetRec, regOperand_none (regOk_eq_false_iff.mp h)]
  | getRec r => simp only [exec, execGetRec, regOperand_none (regOk_eq_false_iff.mp h)]
  | _ => cases h

theorem not_wf_refused {i : Instr} (h : i.wf = false) (s : State) :
    (∃ e, decode (encode i) = .error e) ∧
      ∃ t, exec i s = .next t ∧ SameCore s t ∧ Replied s t (failed .errIllegal) :=
  ⟨decode_encode_of_not_wf h, _, exec_of_not_wf h s, ⟨rfl, rfl, rfl⟩, rfl, rfl, rfl⟩

/-- Settles O20: such a command is not well-formed, so the decoder refuses its word and it fails in every state. -/
theorem outOfRangeOperandsAreIllegal : Obligations.OutOfRangeOperandsAreIllegal := by
  refine fun s w v => ⟨fun hw => ?_, fun hr => ?_⟩
  · have hbad : widthOk w = false := widthOk_eq_false_iff.mpr hw
    simpa using ⟨not_wf_refused (i := .addField w v) hbad s, not_wf_refused (i := .extract w) hbad s⟩
  · have hbad : regOk w = false := regOk_eq_false_iff.mpr hr
    simpa using ⟨not_wf_refused (i := .setRec w v) hbad s, not_wf_refused (i := .getRec w) hbad s⟩

/-- Settles O54: the invariant bounds a payload out by 19 bytes, and 19 fits into five bits. -/
theorem responseFitsItsPorts : Obligations.ResponseFitsItsPorts := by
  refine ⟨⟨rfl, rfl, rfl, rfl⟩, ?_⟩
  rintro s ⟨-, hresp, -⟩ r hr
  have hlen := (hresp r hr).1
  rw [Response.mlen, BitVec.toNat_ofNat, Nat.mod_eq_of_lt (by omega)]

end Sys2Proof.Machine
end

section
/-! The payload of ENCCFG, septet by septet (30_encoding.md R63, R64, R66). -/

namespace Sys2Proof.Machine

/-! ### A septet stream as strings of seven bits -/

/-- The low seven bits of a byte, most significant first. -/
def byteBits (x : Byte) : List Bool := (List.range 7).map fun j => x.getLsbD (6 - j)

@[simp] theorem byteBits_length (x : Byte) : (byteBits x).length = 7 := by simp [byteBits]

theorem numOf_byteBits (x : Byte) : numOf (byteBits x) = x.toNat % 128 := by
  unfold numOf
  rw [byteBits_length, show 128 = 2 ^ 7 from rfl, ← natOfBits_testBits]
  refine natOfBits_congr fun j hj => ?_
  simp [byteBits, List.getD_eq_getElem?_getD, hj, BitVec.getLsbD]

@[simp] theorem septetBits_nil : septetBits [] = [] := rfl

@[simp] theorem septetBits_cons (x : Byte) (xs : List Byte) : septetBits (x :: xs) = byteBits x ++ septetBits xs := by
  apply List.ext_getElem
  · simp; omega
  · intro i h1 h2
    rw [List.getElem_append]
    by_cases hi : i < 7
    · simp [septetBits, byteBits, hi, Nat.div_eq_of_lt, Nat.mod_eq_of_lt]
    · simp [septetBits, hi, show i / 7 = (i - 7) / 7 + 1 by omega, show i % 7 = (i - 7) % 7 by omega]

/-- A stream that is strings of seven bits laid end to end has those strings' numbers as its septets. -/
theorem map_toNat_of_septetBits {bytes : List Byte} {groups : List (List Bool)} (hseven : ∀ g ∈ groups, g.length = 7)
    (hlt : ∀ x ∈ bytes, x.toNat < 128) (h : septetBits bytes = groups.flatten) :
    bytes.map BitVec.toNat = groups.map numOf := by
  induction groups generalizing bytes with
  | nil =>
    have hlen := congrArg List.length h
    rw [septetBits_length, List.flatten_nil, List.length_nil] at hlen
    rw [List.length_eq_zero_iff.mp (by omega : bytes.length = 0)]
    rfl
  | cons g gs ih =>
    obtain ⟨hg, hgs⟩ := List.forall_mem_cons.mp hseven
    cases bytes with
    | nil =>
      rw [septetBits_nil, List.flatten_cons] at h
      rw [(List.append_eq_nil_iff.mp h.symm).1] at hg
      cases hg
    | cons x xs =>
      obtain ⟨hx, hxs⟩ := List.forall_mem_cons.mp hlt
      rw [septetBits_cons, List.flatten_cons] at h
      obtain ⟨rfl, htail⟩ := List.append_inj h (by rw [byteBits_length, hg])
      rw [List.map_cons, List.map_cons, ih hgs hxs htail, numOf_byteBits, Nat.mod_eq_of_lt hx]

/-! ### Pieces of a register -/

/-- Bits `hi` down to `lo` of a register, most significant first (R66's `f[a:b]`). -/
def sliceBits (v : Half) (hi lo : Nat) : List Bool := (List.range (hi + 1 - lo)).map fun j => v.getLsbD (hi - j)

@[simp] theorem sliceBits_length (v : Half) (hi lo : Nat) : (sliceBits v hi lo).length = hi + 1 - lo := by
  simp [sliceBits]

theorem numOf_sliceBits (v : Half) (hi lo : Nat) : numOf (sliceBits v hi lo) = slice v hi lo := by
  unfold numOf slice
  rw [sliceBits_length, ← natOfBits_testBits]
  refine natOfBits_congr fun j hj => ?_
  simp [sliceBits, List.getD_eq_getElem?_getD, hj, BitVec.getLsbD, Nat.testBit_div_two_pow]
  congr 1; omega

theorem numOf_replicate_false (n : Nat) : numOf (List.replicate n false) = 0 := by
  induction n with
  | zero => rfl
  | succ n ih => rw [List.replicate_succ', numOf_append, ih]; rfl

/-! ### The table -/

/-- The septets of the configuration payload as strings of bits (the second table of 30_encoding.md R66). -/
def configSeptets (r : Records) : List (List Bool) :=
  [sliceBits r[0] 1 0 ++ sliceBits r[1] 1 0 ++ sliceBits r[2] 1 0 ++ sliceBits r[3] 1 1,
   sliceBits r[3] 0 0 ++ sliceBits r[4] 6 1,
   sliceBits r[4] 0 0 ++ sliceBits r[5] 6 1,
   sliceBits r[5] 0 0 ++ sliceBits r[6] 6 1,
   sliceBits r[6] 0 0 ++ sliceBits r[7] 6 1,
   sliceBits r[7] 0 0 ++ sliceBits r[8] 6 1,
   sliceBits r[8] 0 0 ++ sliceBits r[9] 6 1,
   sliceBits r[9] 0 0 ++ sliceBits r[10] 15 10,
   sliceBits r[10] 9 3,
   sliceBits r[10] 2 0 ++ sliceBits r[11] 6 3,
   sliceBits r[11] 2 0 ++ sliceBits r[12] 6 3,
   sliceBits r[12] 2 0 ++ sliceBits r[13] 6 3,
   sliceBits r[13] 2 0 ++ List.replicate 4 false]

theorem configSeptets_length_seven (r : Records) : ∀ g ∈ configSeptets r, g.length = 7 := by
  simp [configSeptets]

theorem configSeptets_numOf (r : Records) : (configSeptets r).map numOf = specConfigPayload r := by
  simp [configSeptets, specConfigPayload, numOf_append, numOf_sliceBits, numOf_replicate_false, Nat.add_assoc,
    -List.reduceReplicate]

/-- The fields laid end to end with four pad bits are the table's septets laid end to end. -/
theorem recordBits_padded (r : Records) :
    recordBits r (List.finRange 14) ++ List.replicate 4 false = (configSeptets r).flatten := rfl

/-- Settles O37: the payload carries the bits of the fields, which the table cuts into sevens. -/
theorem configurationPayloadLayout : Obligations.ConfigurationPayloadLayout := by
  intro s
  obtain ⟨b, hb, hpack⟩ := exec_encCfg s
  obtain ⟨hbits, hused, -⟩ := packRecord_ok hpack
  have hused : b.used.toNat = 87 := hused
  have hstream : septetBits b.toSeptets = (configSeptets s.recs).flatten := by
    rw [septetBits_toSeptets, hbits, hused, ← recordBits_padded]
    rfl
  refine ⟨_, _, hb, rfl, ?_⟩
  rw [map_toNat_of_septetBits (configSeptets_length_seven s.recs) (toSeptets_lt b) hstream, configSeptets_numOf]

end Sys2Proof.Machine
end

section
/-! The number view of the store (10_state.md R15) and reading on: what EXTRACT reads, as a piece of a longer read. -/

namespace Sys2Proof.Machine

theorem bitRead_add (S : Store) (a w w' : Nat) : bitRead S a (w + w') = bitRead S a w * 2 ^ w' + bitRead S (a + w) w' := by
  simp only [bitRead, natOfBits_add, Nat.add_assoc]

/-- The `w` bits from `c` on are cut out of a read of `u` bits by a shift and a mask (40_bitbuffer_ops.md R82). -/
theorem bitRead_slice (S : Store) {c w u : Nat} (h : c + w ≤ u) :
    bitRead S 0 u / 2 ^ (u - c - w) % 2 ^ w = bitRead S c w := by
  obtain ⟨d, rfl⟩ := Nat.exists_eq_add_of_le h
  have hd : c + w + d - c - w = d := by omega
  rw [hd, bitRead_add, Nat.mul_comm _ (2 ^ d), Nat.mul_add_div (Nat.two_pow_pos d), Nat.div_eq_of_lt (bitRead_lt S _ d),
    Nat.add_zero, bitRead_add, Nat.zero_add, Nat.mul_add_mod', Nat.mod_eq_of_lt (bitRead_lt S c w)]

/-- ADDFIELD in the number view (40_bitbuffer_ops.md R81). -/
theorem addField_number {b b' : BitBuffer} {w : Nat} {v : Half} (h : b.addField w v = .ok b') :
    b'.number = b.number * 2 ^ w + v.toNat % 2 ^ w := by
  rw [number_eq, addField_bits h, numOf_append, fieldBits_length, numOf_fieldBits, ← number_eq]

end Sys2Proof.Machine
end

section
/-! CLEAR, ADDFIELD and EXTRACT one at a time (40_bitbuffer_ops.md R80 to R82). -/

namespace Sys2Proof.Machine

section
variable {w : WField} {v : Half} {s t : State}

/-- ADDFIELD where the room is missing. -/
theorem addField_full {b : BitBuffer} {w : Nat} (v : Half) (hw : w ≤ 16) (h : 128 < b.used.toNat + w) :
    b.addField w v = .error .errCapacity := by
  simp [BitBuffer.addField, BitBuffer.hasRoom, Nat.not_le.mpr h, Nat.not_lt.mpr hw]

theorem exec_addField_full (v : Half) (hw : w.toNat ≤ 16) (h : 128 < s.buf.used.toNat + w.toNat) :
    exec (.addField w v) s = .next (s.fail .errCapacity) := by
  simp only [exec, execAddField, addField_full v hw h]

/-- ADDFIELD never lowers `U`. -/
theorem exec_addField_used_le (h : exec (.addField w v) s = .next t) : s.buf.used.toNat ≤ t.buf.used.toNat := by
  obtain ⟨b, hb, rfl⟩ | ⟨e, rfl⟩ := exec_addField_cases h
  · obtain ⟨-, -, hused, -⟩ := addField_ok hb
    exact hused ▸ Nat.le_add_right ..
  · exact le_rfl

/-- EXTRACT never lowers `C`. -/
theorem exec_extract_cursor_le (h : exec (.extract w) s = .next t) : s.buf.cursor.toNat ≤ t.buf.cursor.toNat := by
  obtain ⟨r, b, hx, rfl⟩ | ⟨e, rfl⟩ := exec_extract_cases h
  · obtain ⟨-, -, -, ⟨-, -, hcursor⟩ | ⟨-, -, rfl⟩⟩ := extract_ok hx
    · exact hcursor ▸ Nat.le_add_right ..
    · exact le_rfl
  · exact le_rfl

/-- A layer-1 command other than CLEAR and FROMSEPTETS lowers neither pointer. -/
theorem exec_pointers_le {i : Instr} (h : exec i s = .next t) (hlayer : isLayer2 i = false) (hclear : i ≠ .clear)
    (hfrom : ∀ n, i ≠ .fromSeptets n) :
    s.buf.used.toNat ≤ t.buf.used.toNat ∧ s.buf.cursor.toNat ≤ t.buf.cursor.toNat := by
  cases i with
  | clear => exact absurd rfl hclear
  | addField w v => exact ⟨exec_addField_used_le h, by rw [exec_addField_cursor h]⟩
  | extract w => exact ⟨by rw [(exec_extract_frame h).2], exec_extract_cursor_le h⟩
  | toSeptets => rw [exec_toSeptets_buf h]; exact ⟨le_rfl, le_rfl⟩
  | fromSeptets n => exact absurd rfl (hfrom n)
  | _ => cases hlayer

end

/-- Settles O18: CLEAR's next state is read off, and every other layer-1 command but FROMSEPTETS lowers neither pointer. -/
theorem clearMakesBufferFresh : Obligations.ClearMakesBufferFresh := by
  refine ⟨fun s => ⟨_, rfl, bitAt_zero, rfl, rfl, rfl, rfl, rfl, rfl, rfl, rfl⟩, fun i s t h hlayer hlower => ?_⟩
  by_contra hother
  rw [not_or, not_exists] at hother
  obtain ⟨hclear, hfrom⟩ := hother
  have hkept := exec_pointers_le h hlayer hclear hfrom
  omega

/-- Settles O19: a field that fits is appended bit by bit, and one that does not fit or is too wide fails. -/
theorem addFieldAppendsLowBits : Obligations.AddFieldAppendsLowBits := by
  refine ⟨fun s w v hw hroom => ?_, fun s w v hw hfull => ?_, fun s w v hw => ?_⟩
  · obtain ⟨b, hb⟩ := addField_succeeds v hw hroom
    obtain ⟨-, -, hused, hcursor, hbit⟩ := addField_ok hb
    refine ⟨_, exec_addField_ok hb, hused, hcursor, fun j hj => ?_, fun a ha => ?_, addField_number hb,
      rfl, rfl, rfl, rfl, rfl⟩
    · exact (hbit _).trans (by simp [hj])
    · exact (hbit a).trans (if_neg (by omega))
  · exact ⟨_, exec_addField_full v hw hfull, ⟨rfl, rfl, rfl⟩, rfl, rfl, rfl⟩
  · exact (not_wf_refused (i := .addField w v) (widthOk_eq_false_iff.mpr hw) s).2

/-- Settles O21: the result is a read of the store, whose bits and whose place in the number view are known; an underflow moves
nothing, and a width above 16 is refused. -/
theorem extractReturnsNextBits : Obligations.ExtractReturnsNextBits := by
  refine ⟨fun s w hw hfits => ?_, fun s w hw hshort => ?_, fun s w hw => ?_⟩
  · obtain ⟨r, b, hx⟩ := extract_succeeds (b := s.buf) hw
    obtain ⟨-, hstore, hused, ⟨-, hread, hcursor⟩ | ⟨hshort, -⟩⟩ := extract_ok hx
    · have hbit (k : Nat) : r.getLsbD k =
          (decide (k < w.toNat) && bitAt s.buf.store (s.buf.cursor.toNat + (w.toNat - 1 - k))) := by
        rw [BitVec.getLsbD, hread, bitRead_testBit]
      refine ⟨_, r, exec_extract_ok hx, fun j hj => ?_, fun k hk => ?_, ?_, hcursor, hstore, hused, rfl, rfl, rfl, rfl, rfl⟩
      · have hlt : w.toNat - 1 - j < w.toNat := by omega
        have hplace : w.toNat - 1 - (w.toNat - 1 - j) = j := by omega
        rw [hbit, decide_eq_true hlt, Bool.true_and, hplace]
      · rw [hbit, decide_eq_false (Nat.not_lt.mpr hk), Bool.false_and]
      · rw [hread, BitBuffer.number, bitRead_slice _ hfits]
    · exact absurd hfits (Nat.not_le.mpr hshort)
  · exact ⟨_, exec_extract_ok (extract_short hw hshort), ⟨rfl, rfl, rfl⟩, rfl, rfl, rfl⟩
  · exact (not_wf_refused (i := .extract w) (widthOk_eq_false_iff.mpr hw) s).2

end Sys2Proof.Machine
end

section
/-! Runs of ADDFIELDs and EXTRACTs: the order law, the re-cut law and the capacity law (40_bitbuffer_ops.md R83 to R85). -/

namespace Sys2Proof.Machine

/-- Settles O26: the ADDFIELDs lay the fields' bits end to end in the fresh buffer, and the EXTRACTs read them from its start. -/
theorem fieldsComeBackInOrder : Obligations.FieldsComeBackInOrder := by
  intro s fs hw hsum
  obtain ⟨t, ht, hresp, hbits, hcursor, hrecs, hdin⟩ :=
    execAll_addFields (s := (s.withBuf s.buf.clear).respond .ok 0 []) hw (by simpa using hsum)
  have hpacked : t.buf.bits = packedBits fs := hbits
  obtain ⟨u, hu, huresp, hubits, hucursor, hurecs, hudin⟩ :=
    execAll_extracts_fields (s := t) (pre := []) (post := []) hw (by simpa using hpacked) (by simp [hcursor])
  refine ⟨u, (execAll_cons rfl).trans ((execAll_append ht).trans hu), ?_, ?_, by simpa using hucursor,
    hurecs.trans hrecs, hudin.trans hdin⟩
  · rw [huresp, hresp]
    simp [okEmpty, List.replicate_succ, fieldResponse]
  · rw [← bits_length, hubits, hpacked, packedBits_length]

/-- A number with one more field behind its last bit. -/
def appendField (N : Nat) (p : Half × WField) : Nat := N * 2 ^ p.2.toNat + p.1.toNat

/-- EXTRACTs that fit read the store on from the cursor: behind any number `N` their results append the bits read. -/
theorem execAll_extracts {ws : List WField} {s : State} (hw : ∀ w ∈ ws, w.toNat ≤ 16)
    (hfits : s.buf.cursor.toNat + widthSum ws ≤ s.buf.used.toNat) :
    ∃ (t : State) (vals : List Half), execAll (extracts ws) s = .next t ∧ vals.length = ws.length ∧
      t.responses = s.responses ++ vals.map (fun r => ⟨.ok, r, []⟩) ∧
      (∀ p ∈ vals.zip ws, p.1.toNat < 2 ^ p.2.toNat) ∧
      (∀ N, (vals.zip ws).foldl appendField N =
        N * 2 ^ widthSum ws + bitRead s.buf.store s.buf.cursor.toNat (widthSum ws)) ∧
      t.buf.cursor.toNat = s.buf.cursor.toNat + widthSum ws ∧ t.buf.store = s.buf.store ∧ t.buf.used = s.buf.used := by
  induction ws generalizing s with
  | nil => exact ⟨s, [], rfl, rfl, by simp, by simp, by simp [bitRead, natOfBits], rfl, rfl, rfl⟩
  | cons w ws ih =>
    obtain ⟨hwf, hws⟩ := List.forall_mem_cons.mp hw
    rw [widthSum_cons] at hfits
    obtain ⟨r, b, hx⟩ := extract_succeeds (b := s.buf) hwf
    obtain ⟨-, hstore, hused, ⟨-, hread, hcursor⟩ | ⟨hshort, -⟩⟩ := extract_ok hx
    · obtain ⟨t, vals, ht, hlen, hresp, hlt, hfold, htcur, htstore, htused⟩ :=
        ih (s := (s.withBuf b).respond .ok r []) hws (by simp only [respond_buf, withBuf_buf, hused, hcursor]; omega)
      simp only [respond_buf, withBuf_buf, hstore, hused, hcursor] at hfold htcur htstore htused
      refine ⟨t, r :: vals, (execAll_cons (exec_extract_ok hx)).trans ht, by simp [hlen], by simp [hresp], ?_,
        fun N => ?_, by rw [htcur, widthSum_cons, Nat.add_assoc], htstore, htused⟩
      · exact List.forall_mem_cons.mpr ⟨hread ▸ bitRead_lt _ _ _, hlt⟩
      · rw [List.zip_cons_cons, List.foldl_cons, hfold, widthSum_cons, bitRead_add, appendField, hread]
        ring
    · omega

/-- Settles O27: the results read on, from the number 0. -/
theorem extractsRecutTheStore : Obligations.ExtractsRecutTheStore := by
  intro s ws hw hfits
  obtain ⟨t, vals, ht, hlen, hresp, hlt, hfold, hframe⟩ := execAll_extracts hw hfits
  exact ⟨t, vals, ht, hlen, hresp, hlt, (hfold 0).trans (by simp), hframe⟩

/-- ADDFIELDs all answer `OK` exactly when there is room for all of them: the first that finds none fails, and the others
go on. -/
theorem execAll_addFields_ok_iff {fs : List (WField × Half)} {s : State} (hw : ∀ f ∈ fs, f.1.toNat ≤ 16)
    (hused : s.buf.used.toNat ≤ 128) :
    ∃ t rs, execAll (addFields fs) s = .next t ∧ t.responses = s.responses ++ rs ∧
      ((∀ r ∈ rs, r.status = .ok) ↔ s.buf.used.toNat + widthSum (fs.map Prod.fst) ≤ 128) := by
  induction fs generalizing s with
  | nil => exact ⟨s, [], rfl, by simp, by simpa using hused⟩
  | cons f fs ih =>
    obtain ⟨hwf, hws⟩ := List.forall_mem_cons.mp hw
    rcases Nat.lt_or_ge 128 (s.buf.used.toNat + f.1.toNat) with hfull | hroom
    · obtain ⟨t, rs, ht, hresp, -⟩ := ih (s := s.fail .errCapacity) hws hused
      refine ⟨t, failed .errCapacity :: rs, (execAll_cons (exec_addField_full f.2 hwf hfull)).trans ht,
        by simp [hresp, failed], ?_⟩
      simp only [List.map_cons, widthSum_cons]
      exact iff_of_false (fun hok => absurd (hok _ List.mem_cons_self) (by decide)) (by omega)
    · obtain ⟨b, hb⟩ := addField_succeeds f.2 hwf hroom
      obtain ⟨-, -, hbused, -⟩ := addField_ok hb
      obtain ⟨t, rs, ht, hresp, hiff⟩ :=
        ih (s := (s.withBuf b).respond .ok 0 []) hws (by simp only [respond_buf, withBuf_buf]; omega)
      simp only [respond_buf, withBuf_buf, hbused] at hiff
      refine ⟨t, okEmpty :: rs, (execAll_cons (exec_addField_ok hb)).trans ht, by simp [hresp, okEmpty], ?_⟩
      rw [List.forall_mem_cons, hiff, List.map_cons, widthSum_cons, Nat.add_assoc]
      exact and_iff_right rfl

/-- Settles O28: the fresh buffer has all its room, and CLEAR itself answers `OK`. -/
theorem addFieldsSucceedUpToCapacity : Obligations.AddFieldsSucceedUpToCapacity := by
  intro s fs hw
  obtain ⟨t, rs, ht, hresp, hiff⟩ :=
    execAll_addFields_ok_iff (s := (s.withBuf s.buf.clear).respond .ok 0 []) hw (by simp)
  refine ⟨t, okEmpty :: rs, (execAll_cons rfl).trans ht, by simp [hresp, okEmpty], ?_⟩
  simpa [okEmpty] using hiff

end Sys2Proof.Machine
end

section
/-! A septet stream read as one string of bits: its bits one by one, its septets as numbers, and what it says of its bytes
(41_septet_ops.md R100, R104, R106). -/

namespace Sys2Proof.Machine

/-! ### Strings of bits as numbers -/

theorem numOf_lt (l : List Bool) : numOf l < 2 ^ l.length := natOfBits_lt _ _

/-- A piece of a string of bits is cut out of the string's number by a shift and a mask. -/
theorem numOf_middle (pre mid post : List Bool) :
    numOf (pre ++ (mid ++ post)) / 2 ^ post.length % 2 ^ mid.length = numOf mid := by
  rw [← List.append_assoc, numOf_append, Nat.mul_comm, Nat.mul_add_div (Nat.two_pow_pos _), Nat.div_eq_of_lt (numOf_lt post),
    Nat.add_zero, numOf_append, Nat.mul_add_mod', Nat.mod_eq_of_lt (numOf_lt mid)]

/-! ### The septets of a stream -/

theorem septetBits_eq_flatten (bytes : List Byte) : septetBits bytes = (bytes.map byteBits).flatten := by
  induction bytes with
  | nil => rfl
  | cons x xs ih => rw [septetBits_cons, ih, List.map_cons, List.flatten_cons]

theorem septetBits_append (xs ys : List Byte) : septetBits (xs ++ ys) = septetBits xs ++ septetBits ys := by
  simp only [septetBits_eq_flatten, List.map_append, List.flatten_append]

/-- Septet `k` of a stream, cut out of the stream's number (41_septet_ops.md R100). -/
theorem numOf_septetBits_septet (bytes : List Byte) (k : Nat) (hk : k < bytes.length) :
    numOf (septetBits bytes) / 2 ^ (7 * (bytes.length - 1 - k)) % 128 = bytes[k].toNat % 128 := by
  have hsplit : septetBits bytes =
      septetBits (bytes.take k) ++ (byteBits bytes[k] ++ septetBits (bytes.drop (k + 1))) := by
    rw [← septetBits_cons, ← List.drop_eq_getElem_cons hk, ← septetBits_append, List.take_append_drop]
  have hpost : 7 * (bytes.length - 1 - k) = (septetBits (bytes.drop (k + 1))).length := by
    rw [septetBits_length, List.length_drop, Nat.sub_sub, Nat.add_comm 1]
  have hmask : 128 = 2 ^ (byteBits bytes[k]).length := by rw [byteBits_length]; rfl
  rw [← numOf_byteBits, hpost, hmask, hsplit, numOf_middle]

/-- The number of a stream, septet by septet from the first (41_septet_ops.md R104). -/
theorem numOf_septetBits (bytes : List Byte) :
    numOf (septetBits bytes) = bytes.foldl (fun N x => N * 128 + x.toNat % 128) 0 := by
  induction bytes using List.reverseRecOn with
  | nil => rfl
  | append_singleton xs x ih =>
    rw [septetBits_append, septetBits_cons, septetBits_nil, List.append_nil, numOf_append, byteBits_length, numOf_byteBits,
      List.foldl_append, ih]
    rfl

/-! ### Bit 7 of a byte -/

theorem getLsbD_mask (x : Byte) (j : Nat) : (x &&& 0x7F#8).getLsbD (6 - j) = x.getLsbD (6 - j) := by
  have hset : ∀ i < 7, (0x7F#8).getLsbD i = true := by decide
  rw [BitVec.getLsbD_and, hset (6 - j) (by omega), Bool.and_true]

theorem bitWrite_mask (S : Store) (a : Nat) (x : Byte) : bitWrite S a 7 (x &&& 0x7F#8) = bitWrite S a 7 x := by
  simp only [bitWrite, Nat.reduceSub, getLsbD_mask]

theorem loadSeptets_map_mask (S : Store) (k : Nat) (bytes : List Byte) :
    loadSeptets S k (bytes.map (· &&& 0x7F#8)) = loadSeptets S k bytes := by
  induction bytes generalizing S k with
  | nil => rfl
  | cons x xs ih => rw [List.map_cons, loadSeptets, loadSeptets, bitWrite_mask, ih]

theorem fromSeptets_map_mask (b : BitBuffer) (bytes : List Byte) :
    b.fromSeptets (bytes.map (· &&& 0x7F#8)) = b.fromSeptets bytes := by
  simp only [BitBuffer.fromSeptets, List.length_map, loadSeptets_map_mask]

/-- Payloads that agree but for bit 7 load the same buffer (41_septet_ops.md R106). -/
theorem fromSeptets_congr (b : BitBuffer) {xs ys : List Byte} (h : xs.map (· &&& 0x7F#8) = ys.map (· &&& 0x7F#8)) :
    b.fromSeptets xs = b.fromSeptets ys := by
  rw [← fromSeptets_map_mask, h, fromSeptets_map_mask]

theorem toNat_mask (x : Byte) : (x &&& 0x7F#8).toNat = x.toNat % 128 := by
  rw [BitVec.toNat_and]
  exact Nat.and_two_pow_sub_one_eq_mod x.toNat 7

/-- Bytes without bit 7 that carry the bits of a stream are that stream's bytes with bit 7 cleared. -/
theorem eq_map_mask_of_septetBits {xs ys : List Byte} (hlt : ∀ x ∈ xs, x.toNat < 128)
    (h : septetBits xs = septetBits ys) : xs = ys.map (· &&& 0x7F#8) := by
  have hseven : ∀ g ∈ ys.map byteBits, g.length = 7 := by simp
  apply List.map_injective_iff.mpr BitVec.toNat_injective
  calc xs.map BitVec.toNat
      = (ys.map byteBits).map numOf := map_toNat_of_septetBits hseven hlt (h.trans (septetBits_eq_flatten ys))
    _ = (ys.map (· &&& 0x7F#8)).map BitVec.toNat := by
      simp only [List.map_map, Function.comp_def, numOf_byteBits, toNat_mask]

/-! ### TOSEPTETS and FROMSEPTETS as streams -/

/-- TOSEPTETS never sets bit 7 (41_septet_ops.md R101). -/
theorem septet_bit_seven (b : BitBuffer) (k : Nat) : (b.septet k).getLsbD 7 = false :=
  Nat.testBit_lt_two_pow (septet_lt b k)

/-- TOSEPTETS in the number view: the stream's number is `P = N << (7m-U)` (41_septet_ops.md R100). -/
theorem numOf_septetBits_toSeptets (b : BitBuffer) :
    numOf (septetBits b.toSeptets) = b.number * 2 ^ (7 * b.toSeptets.length - b.used.toNat) := by
  rw [septetBits_toSeptets, numOf_append, List.length_replicate, numOf_replicate_false, Nat.add_zero, number_eq,
    toSeptets_length]

theorem streamBit_getElem {bytes : List Byte} {k j : Nat} (hk : k < bytes.length) (hj : j < 7) :
    streamBit bytes (7 * k + j) = bytes[k].getLsbD (6 - j) := by
  have hdiv : (7 * k + j) / 7 = k := by omega
  have hmod : (7 * k + j) % 7 = j := by omega
  rw [streamBit, hdiv, hmod, List.getD_eq_getElem _ _ hk]

theorem streamBit_beyond {bytes : List Byte} {i : Nat} (h : 7 * bytes.length ≤ i) : streamBit bytes i = false := by
  rw [streamBit, List.getD_eq_default _ _ (by omega)]
  exact BitVec.getLsbD_zero

/-- The stream TOSEPTETS gives shows the written bits, and zeros behind them (41_septet_ops.md R108). -/
theorem streamBit_toSeptets (b : BitBuffer) (i : Nat) :
    streamBit b.toSeptets i = (decide (i < b.used.toNat) && bitAt b.store i) := by
  rcases Nat.lt_or_ge i (7 * b.toSeptets.length) with hi | hi
  · have hk : i / 7 < b.toSeptets.length := Nat.div_lt_of_lt_mul hi
    rw [streamBit, List.getD_eq_getElem _ _ hk, toSeptets_getElem, septet_bit b _ _ (Nat.mod_lt i (by decide)), Nat.div_add_mod]
  · have hbeyond : ¬ i < b.used.toNat := by rw [toSeptets_length] at hi; omega
    rw [streamBit_beyond hi, decide_eq_false hbeyond, Bool.false_and]

/-- FROMSEPTETS loads the bits of the stream, and zeros behind it (41_septet_ops.md R104). -/
theorem bitAt_fromSeptets {b b' : BitBuffer} {bytes : List Byte} (h : b.fromSeptets bytes = .ok b') (i : Nat) :
    bitAt b'.store i = streamBit bytes i := by
  obtain ⟨-, -, -, hbit⟩ := fromSeptets_ok h
  rw [hbit]
  split
  case isTrue => rfl
  case isFalse hi => exact (streamBit_beyond (Nat.not_lt.mp hi)).symm

/-- FROMSEPTETS in the number view (41_septet_ops.md R104). -/
theorem fromSeptets_number {b b' : BitBuffer} {bytes : List Byte} (h : b.fromSeptets bytes = .ok b') :
    b'.number = bytes.foldl (fun N x => N * 128 + x.toNat % 128) 0 := by
  rw [number_eq, fromSeptets_bits h, numOf_septetBits]

end Sys2Proof.Machine
end

section
/-! TOSEPTETS, FROMSEPTETS and the laws of the septet stream (41_septet_ops.md R100 to R110). -/

namespace Sys2Proof.Machine

/-- TOSEPTETS after a load gives the payload back with bit 7 cleared (41_septet_ops.md R110). -/
theorem toSeptets_fromSeptets {b b' : BitBuffer} {bytes : List Byte} (h : b.fromSeptets bytes = .ok b') :
    b'.toSeptets = bytes.map (· &&& 0x7F#8) := by
  obtain ⟨-, hused, -⟩ := fromSeptets_ok h
  have hpad : 7 * ((b'.used.toNat + 6) / 7) - b'.used.toNat = 0 := by omega
  refine eq_map_mask_of_septetBits (toSeptets_lt b') ?_
  rw [septetBits_toSeptets, hpad, List.replicate_zero, List.append_nil, fromSeptets_bits h]

/-- Settles O22: each byte is a septet of the written part, and the bytes' stream is the number view shifted. -/
theorem toSeptetsReturnsWrittenBits : Obligations.ToSeptetsReturnsWrittenBits := by
  refine fun s => ⟨_, s.buf.toSeptets, rfl, toSeptets_length _, fun k hk => ⟨?_, fun j hj => ?_, ?_⟩,
    ⟨rfl, rfl, rfl⟩, rfl, rfl, rfl⟩
  · rw [toSeptets_getElem, septet_bit_seven]
  · rw [toSeptets_getElem, septet_bit _ _ _ hj]
  · rw [← numOf_septetBits_toSeptets, numOf_septetBits_septet _ _ hk, Nat.mod_eq_of_lt]
    exact toSeptets_lt _ _ (List.getElem_mem hk)

/-- Settles O23: the bits loaded are those of the payload's stream; a payload too long for the store is taken and refused. -/
theorem fromSeptetsReplacesBuffer : Obligations.FromSeptetsReplacesBuffer := by
  refine fun s n payload rest hd hl => ⟨fun hfits => ?_, fun hlong => ?_⟩
  · rw [← hl] at hfits ⊢
    obtain ⟨b, hb⟩ := fromSeptets_succeeds s.buf hfits
    obtain ⟨-, hused, hcursor, -⟩ := fromSeptets_ok hb
    refine ⟨_, exec_fromSeptets hd hl hb, hused, hcursor, fun k hk j hj => ?_, fun i hi => ?_, fromSeptets_number hb,
      rfl, rfl, rfl, rfl, rfl⟩
    · exact (bitAt_fromSeptets hb _).trans (streamBit_getElem hk hj)
    · exact (bitAt_fromSeptets hb i).trans (streamBit_beyond hi)
  · exact ⟨_, exec_fromSeptets_long hd hl hlong, rfl, rfl, rfl, rfl, rfl, rfl⟩

/-- Payloads of one length that `k` cannot tell apart give a payload command one outcome. -/
theorem withPayload_congr {i : Instr} {n : Half} (s : State) {k : List Byte → State → Host.Outcome State Fault Refusal}
    {xs ys : List Byte} (rest : List Byte) (hx : xs.length = n.toNat) (hy : ys.length = n.toNat)
    (hk : ∀ t, k xs t = k ys t) :
    withPayload i n { s with din := xs ++ rest } k = withPayload i n { s with din := ys ++ rest } k := by
  rw [withPayload_append rfl hx, withPayload_append rfl hy, hk]

/-- Settles O29: all three commands see their payload only through its length and the buffer it loads. -/
theorem highBitsOfPayloadAreIgnored : Obligations.HighBitsOfPayloadAreIgnored := by
  intro s n xs ys rest hx hmask
  have hlen : xs.length = ys.length := by simpa using congrArg List.length hmask
  have hy : ys.length = n.toNat := hlen ▸ hx
  have hload (b : BitBuffer) : b.fromSeptets xs = b.fromSeptets ys := fromSeptets_congr b hmask
  refine ⟨?_, ?_, ?_⟩
  · simp only [exec, execFromSeptets]
    exact withPayload_congr s rest hx hy fun t => by rw [hload]
  · simp only [exec, execDecCfg]
    exact withPayload_congr s rest hx hy fun t => by rw [hload, hlen]
  · simp only [exec, execDecVer]
    exact withPayload_congr s rest hx hy fun t => by rw [hload, hlen]

/-- Settles O30: the bits loaded are those of TOSEPTETS's stream, which shows the written bits and zeros behind them. -/
theorem storeSurvivesSeptetStream : Obligations.StoreSurvivesSeptetStream := by
  refine fun s hused => ⟨_, s.buf.toSeptets, rfl, ⟨rfl, rfl, rfl⟩, fun q n rest hd hn => ?_⟩
  have hlen := toSeptets_length s.buf
  obtain ⟨b, hb⟩ := fromSeptets_succeeds q.buf (bytes := s.buf.toSeptets) (by omega)
  obtain ⟨-, hbused, hcursor, -⟩ := fromSeptets_ok hb
  refine ⟨_, exec_fromSeptets hd hn.symm hb, ⟨rfl, rfl, rfl⟩, hlen ▸ hbused, hcursor, fun i => ?_⟩
  exact (bitAt_fromSeptets hb i).trans (streamBit_toSeptets s.buf i)

/-- Settles O31: 127 and 128 bits make 19 septets, one more than FROMSEPTETS takes. -/
theorem fullBufferCannotBeLoadedBack : Obligations.FullBufferCannotBeLoadedBack := by
  intro s hlow hhigh
  have hlen : s.buf.toSeptets.length = 19 := by rw [toSeptets_length]; omega
  refine ⟨_, _, rfl, ⟨rfl, rfl, rfl⟩, hlen, fun q rest hd => ?_⟩
  exact ⟨_, exec_fromSeptets_long hd hlen (by decide), rfl, rfl, rfl, rfl, rfl⟩

/-- Settles O32: the load answers `OK`, and what TOSEPTETS then returns is `toSeptets_fromSeptets`. -/
theorem septetStreamSurvivesBuffer : Obligations.SeptetStreamSurvivesBuffer := by
  intro s n payload rest hd hl hfits
  obtain ⟨b, hb⟩ := fromSeptets_succeeds s.buf (hl ▸ hfits)
  refine ⟨_, _, exec_fromSeptets hd hl hb, rfl, ?_⟩
  rw [← toSeptets_fromSeptets hb]
  exact List.append_assoc ..

end Sys2Proof.Machine
end

section
/-! SETREC and GETREC (42_schema_codec.md R121, R122). -/

namespace Sys2Proof.Machine

section
variable {i : WField}

theorem exec_setRec (s : State) (v : Half) (h : i.toNat < 14) :
    exec (.setRec i v) s = .next ((s.withRecs (writeRec s.recs ⟨i.toNat, h⟩ v)).respond .ok 0 []) := by
  simp only [exec, execSetRec, regOperand_eq h, goOn]

theorem exec_getRec (s : State) (h : i.toNat < 14) :
    exec (.getRec i) s = .next (s.respond .ok (readRec s.recs ⟨i.toNat, h⟩) []) := by
  simp only [exec, execGetRec, regOperand_eq h, goOn]

end

/-- Settles O34: a register reads back what was written to it, every other one what it held; a number above 13 is refused. -/
theorem setRecWritesOneRegister : Obligations.SetRecWritesOneRegister := by
  refine ⟨fun s i v h => ?_, fun s i v h => ?_⟩
  · have hread (j : Fin 14) := readRec_writeRec s.recs ⟨i.toNat, h⟩ j v
    refine ⟨_, exec_setRec s v h, (hread ⟨i.toNat, h⟩).trans (if_pos rfl), fun j hj => ?_, rfl, rfl, rfl, rfl, rfl⟩
    exact (hread j).trans (if_neg fun hij => hj (congrArg Fin.val hij).symm)
  · exact (not_wf_refused (i := .setRec i v) (regOk_eq_false_iff.mpr h) s).2

/-- Settles O35: the register is the result of the one response; a number above 13 is refused. -/
theorem getRecReturnsRegister : Obligations.GetRecReturnsRegister := by
  refine ⟨fun s i h => ⟨_, exec_getRec s h, ⟨rfl, rfl, rfl⟩, rfl, rfl, rfl⟩, fun s i h => ?_⟩
  exact (not_wf_refused (i := .getRec i) (regOk_eq_false_iff.mpr h) s).2

end Sys2Proof.Machine
end

section
/-! Strings of bits, buffers and septet streams, read at a place (30_encoding.md R63, R66; 41_septet_ops.md R100, R104). -/

namespace Sys2Proof.Machine

/-- Under the invariant the written bits and the cursor say all there is of a buffer. -/
theorem buffer_eq_of_bits {b c : BitBuffer} (hb : b.Inv) (hc : c.Inv) (hcursor : b.cursor = c.cursor)
    (hbits : b.bits = c.bits) : b = c := by
  have hused : b.used = c.used := BitVec.eq_of_toNat_eq (by rw [← bits_length, hbits, bits_length])
  refine buffer_ext hb hc hused hcursor fun i hi => ?_
  have hi' : i < b.bits.length := by rwa [bits_length]
  rw [← bits_getElem b i hi', ← bits_getElem c i (hbits ▸ hi')]
  simp only [hbits]

/-- A piece of the written part, read as a number. -/
theorem bitRead_of_bits {b : BitBuffer} {pre mid post : List Bool} (h : b.bits = pre ++ (mid ++ post)) :
    bitRead b.store pre.length mid.length = numOf mid := by
  have hlen : pre.length + mid.length ≤ b.used.toNat := by rw [← bits_length, h]; simp
  rw [bitRead_eq_numOf hlen, h, List.drop_left, List.take_left]

/-- A bit of the store inside a read is a bit of the number read. -/
theorem bitAt_eq_testBit_bitRead (S : Store) (a : Nat) {w j : Nat} (hj : j < w) :
    bitAt S (a + j) = (bitRead S a w).testBit (w - 1 - j) := by
  have hlt : w - 1 - j < w := by omega
  have hplace : w - 1 - (w - 1 - j) = j := by omega
  rw [bitRead_testBit, decide_eq_true hlt, Bool.true_and, hplace]

/-- A field that was read as a value cut to its width shows that value's low bits, most significant first. -/
theorem bitAt_of_bitRead {S : Store} {a w j : Nat} {v : Half} (h : bitRead S a w = v.toNat % 2 ^ w) (hj : j < w) :
    bitAt S (a + j) = v.getLsbD (w - 1 - j) := by
  have hlt : w - 1 - j < w := by omega
  rw [bitAt_eq_testBit_bitRead S a hj, h, Nat.testBit_mod_two_pow, decide_eq_true hlt, Bool.true_and]
  rfl

theorem streamBit_toSeptets_of_inv {b : BitBuffer} (h : b.Inv) (i : Nat) : streamBit b.toSeptets i = bitAt b.store i := by
  rw [streamBit_toSeptets]
  rcases Nat.lt_or_ge i b.used.toNat with hi | hi
  · rw [decide_eq_true hi, Bool.true_and]
  · rw [h.tail hi, Bool.and_false]

/-- A field of the stream TOSEPTETS gives is that field of the store. -/
theorem streamField_toSeptets {b : BitBuffer} (h : b.Inv) (a w : Nat) :
    streamField b.toSeptets a w = bitRead b.store a w :=
  natOfBits_congr fun _ _ => streamBit_toSeptets_of_inv h _

/-- What EXTRACT reads after a load is a field of the stream. -/
theorem bitRead_fromSeptets {b b' : BitBuffer} {bytes : List Byte} (h : b.fromSeptets bytes = .ok b') (a w : Nat) :
    bitRead b'.store a w = streamField bytes a w :=
  natOfBits_congr fun _ _ => bitAt_fromSeptets h _

theorem streamBit_eq_decide_and (bytes : List Byte) (i : Nat) :
    streamBit bytes i = (decide (i < 7 * bytes.length) && streamBit bytes i) := by
  rcases Nat.lt_or_ge i (7 * bytes.length) with hi | hi
  · rw [decide_eq_true hi, Bool.true_and]
  · rw [streamBit_beyond hi, Bool.and_false]

theorem streamBit_append {xs : List Byte} (ys : List Byte) {i : Nat} (h : i < 7 * xs.length) :
    streamBit (xs ++ ys) i = streamBit xs i := by
  rw [streamBit, streamBit, List.getD_append _ _ _ _ (Nat.div_lt_of_lt_mul h)]

/-- A field that lies within the first bytes of a stream does not depend on the others. -/
theorem streamField_append {xs : List Byte} (ys : List Byte) {a w : Nat} (h : a + w ≤ 7 * xs.length) :
    streamField (xs ++ ys) a w = streamField xs a w :=
  natOfBits_congr fun _ _ => streamBit_append ys (by omega)

/-- The last bits of a septet, as a field of the stream. -/
theorem streamField_low {bytes : List Byte} {k w : Nat} (hk : k < bytes.length) (hw : w ≤ 7) :
    streamField bytes (7 * k + (7 - w)) w = bytes[k].toNat % 2 ^ w := by
  rw [← natOfBits_testBits]
  refine natOfBits_congr fun j hj => ?_
  have hlt : 7 - w + j < 7 := by omega
  have hplace : 6 - (7 - w + j) = w - 1 - j := by omega
  rw [Nat.add_assoc, streamBit_getElem hk hlt, hplace]
  rfl

end Sys2Proof.Machine
end

section
/-! ENCCFG and ENCVER: what they pack (42_schema_codec.md R126, R128). -/

namespace Sys2Proof.Machine

/-! ### The configuration -/

/-- The fields stand where R66 puts them: a field begins where the widths before it end. -/
theorem specOffset_eq (i : Fin 14) : widthOf ((List.finRange 14).take i) = specOffset i := by decide +revert

theorem specField_end_le (i : Fin 14) : specOffset i + specWidth i ≤ 87 := by decide +revert

theorem specWidth_le (i : Fin 14) : specWidth i ≤ 16 := fieldWidth_eq i ▸ fieldWidth_le i

/-- A field among the fields laid end to end. -/
theorem recordBits_split (r : Records) (i : Fin 14) :
    recordBits r (List.finRange 14) =
      recordBits r ((List.finRange 14).take i) ++
        (fieldBits (specWidth i) (readRec r i) ++ recordBits r ((List.finRange 14).drop (i + 1))) := by
  have hi : (i : Nat) < (List.finRange 14).length := by simp
  have hsplit : List.finRange 14 = (List.finRange 14).take i ++ i :: (List.finRange 14).drop (i + 1) := by
    conv_lhs => rw [← List.take_append_drop i (List.finRange 14), List.drop_eq_getElem_cons hi]
    simp
  conv_lhs => rw [hsplit]
  simp [recordBits, fieldWidth_eq]

/-- All that ENCCFG does: it packs the fields, end to end, into a fresh buffer and returns the septets of it. -/
theorem exec_encCfg_packs (s : State) :
    ∃ b : BitBuffer, exec .encCfg s = .next ((s.withBuf b).respond .ok 0 b.toSeptets) ∧ b.Inv ∧
      b.used = 87 ∧ b.cursor = 0 ∧ b.bits = recordBits s.recs (List.finRange 14) := by
  obtain ⟨b, hb, hpack⟩ := exec_encCfg s
  obtain ⟨hbits, hused, hcursor, hinv⟩ := packRecord_ok hpack
  exact ⟨b, hb, hinv (clear_inv _), BitVec.eq_of_toNat_eq hused, hcursor, hbits⟩

/-- What a read at a field's place gives, once the fields are packed: the register cut to the field's width. -/
theorem bitRead_packed {b : BitBuffer} {r : Records} (h : b.bits = recordBits r (List.finRange 14)) (i : Fin 14) :
    bitRead b.store (specOffset i) (specWidth i) = (readRec r i).toNat % 2 ^ specWidth i := by
  have hread := bitRead_of_bits (h.trans (recordBits_split r i))
  rwa [recordBits_length, specOffset_eq, fieldBits_length, numOf_fieldBits] at hread

/-- Settles O36: a field's bits are those that a read at its place gives, and the payload shows the store. -/
theorem encCfgPacksRecord : Obligations.EncCfgPacksRecord := by
  intro s
  obtain ⟨b, hb, hinv, hused, hcursor, hbits⟩ := exec_encCfg_packs s
  refine ⟨_, b.toSeptets, hb, hused, hcursor, fun i j hj => bitAt_of_bitRead (bitRead_packed hbits i) hj,
    fun a ha => hinv.tail (hused ▸ ha), by rw [toSeptets_length, hused]; rfl, fun a _ => streamBit_toSeptets_of_inv hinv a,
    fun x hx => Nat.le_of_lt_succ (toSeptets_lt b x hx), rfl, rfl, rfl, rfl, rfl⟩

/-! ### The version -/

/-- All that ENCVER does: it packs the version into a fresh buffer and returns the septets of it. -/
theorem exec_encVer_packs (s : State) (v : Half) :
    ∃ b : BitBuffer, exec (.encVer v) s = .next ((s.withBuf b).respond .ok 0 b.toSeptets) ∧
      s.buf.clear.addField 16 v = .ok b ∧ b.Inv ∧ b.used = 16 ∧ b.cursor = 0 ∧ b.bits = fieldBits 16 v := by
  obtain ⟨b, hb, hadd⟩ := exec_encVer v s
  obtain ⟨-, -, hused, hcursor, -⟩ := addField_ok hadd
  exact ⟨b, hb, hadd, addField_inv hadd (clear_inv _), BitVec.eq_of_toNat_eq hused, hcursor, addField_bits hadd⟩

theorem bitRead_packedVersion {b : BitBuffer} {v : Half} (h : b.bits = fieldBits 16 v) : bitRead b.store 0 16 = v.toNat := by
  have hread := bitRead_of_bits (b := b) (pre := []) (mid := fieldBits 16 v) (post := []) (by simpa using h)
  rwa [fieldBits_length, numOf_fieldBits, Nat.mod_eq_of_lt v.isLt] at hread

/-- The septets of the version payload as strings of bits (30_encoding.md R67). -/
def versionSeptets (v : Half) : List (List Bool) :=
  [sliceBits v 15 9, sliceBits v 8 2, sliceBits v 1 0 ++ List.replicate 5 false]

theorem versionSeptets_numOf (v : Half) :
    (versionSeptets v).map numOf = [slice v 15 9, slice v 8 2, slice v 1 0 * 32] := by
  simp [versionSeptets, numOf_append, numOf_sliceBits, numOf_replicate_false, -List.reduceReplicate]

/-- The version with five pad bits is R67's septets laid end to end. -/
theorem fieldBits_version_padded (v : Half) : fieldBits 16 v ++ List.replicate 5 false = (versionSeptets v).flatten := rfl

theorem septetBits_version {b : BitBuffer} {v : Half} (hused : b.used = 16) (hbits : b.bits = fieldBits 16 v) :
    septetBits b.toSeptets = (versionSeptets v).flatten := by
  rw [septetBits_toSeptets, hbits, hused, ← fieldBits_version_padded]
  rfl

/-- Settles O38: the store shows the bits that a read of it gives, and the payload carries them, which R67 cuts into sevens. -/
theorem encVerPacksVersion : Obligations.EncVerPacksVersion := by
  intro s v
  obtain ⟨b, hb, -, hinv, hused, hcursor, hbits⟩ := exec_encVer_packs s v
  have hread : bitRead b.store 0 16 = v.toNat % 2 ^ 16 := by rw [bitRead_packedVersion hbits, Nat.mod_eq_of_lt v.isLt]
  refine ⟨_, b.toSeptets, hb, hused, hcursor, fun j hj => ?_, fun a ha => hinv.tail (hused ▸ ha), rfl, rfl,
    ⟨rfl, rfl, rfl⟩, ?_⟩
  · simpa using bitAt_of_bitRead hread hj
  · rw [map_toNat_of_septetBits (by simp [versionSeptets]) (toSeptets_lt b) (septetBits_version hused hbits),
      versionSeptets_numOf]

end Sys2Proof.Machine
end

section
/-! ENCCFG and ENCVER as sequences of layer-1 commands (42_schema_codec.md R120, R126, R128). -/

namespace Sys2Proof.Machine

theorem exec_toSeptets (s : State) : exec .toSeptets s = .next (s.respond .ok 0 s.buf.toSeptets) := rfl

/-- A sequence of commands keeps the invariant of the buffer. -/
theorem execAll_keeps_buf_inv {is : List Instr} {s t : State} (h : execAll is s = .next t) (hbuf : s.buf.Inv) :
    t.buf.Inv := by
  induction is generalizing s with
  | nil => cases h; exact hbuf
  | cons i is ih =>
    obtain ⟨s', hs, hend⟩ := exec_cases i s
    rw [execAll_cons hs] at h
    obtain ⟨-, -, rfl⟩ | ⟨-, _, _, _, -, -, -, -, -, hinv, -⟩ := hend
    · exact ih h hbuf
    · exact ih h (hinv hbuf)

theorem toNat_ofNat_specWidth (i : Fin 14) : (BitVec.ofNat 5 (specWidth i)).toNat = specWidth i := by decide +revert

/-- The ADDFIELDs of the expansion pack the bits of the registers' fields. -/
theorem packedBits_specFields (r : Records) : packedBits (specFields r) = recordBits r (List.finRange 14) := by
  simp [packedBits, specFields, recordBits, List.flatMap_map, toNat_ofNat_specWidth, fieldWidth_eq, readRec,
    -BitVec.toNat_ofNat]

theorem specFields_width_le (r : Records) : ∀ f ∈ specFields r, f.1.toNat ≤ 16 := by
  simp [specFields, toNat_ofNat_specWidth, specWidth_le, -BitVec.toNat_ofNat]

theorem widthSum_specFields (r : Records) : widthSum ((specFields r).map Prod.fst) = 87 := by
  rw [← packedBits_length, packedBits_specFields, recordBits_length]
  exact cfgBits_eq

/-- Settles O43: both ways fill a fresh buffer with the bits of the fields, and the bits say all of a buffer. -/
theorem encCfgIsItsExpansion : Obligations.EncCfgIsItsExpansion := by
  intro s
  obtain ⟨b, hb, hinv, hused, hcursor, hbits⟩ := exec_encCfg_packs s
  obtain ⟨t, ht, hresp, htbits, htcursor, hrecs, hdin⟩ :=
    execAll_addFields (fs := specFields s.recs) (s := (s.withBuf s.buf.clear).respond .ok 0 []) (specFields_width_le _)
      (by simp [widthSum_specFields])
  have hsame : b = t.buf := buffer_eq_of_bits hinv (execAll_keeps_buf_inv ht (clear_inv s.buf)) (hcursor.trans htcursor.symm)
    (by rw [hbits, htbits, packedBits_specFields]; rfl)
  refine ⟨_, t.respond .ok 0 t.buf.toSeptets, b.toSeptets, hb, ?_, ⟨rfl, rfl, rfl⟩, ?_, hsame, hused, hcursor,
    by rw [toSeptets_length, hused]; rfl, rfl, hrecs, rfl, hdin⟩
  · exact (execAll_cons rfl).trans (execAll_append ht)
  · rw [respond_responses, hresp, hsame]
    simp [okEmpty, specFields, List.replicate_succ]

/-- Settles O44: the ADDFIELD of the expansion is the one that ENCVER makes. -/
theorem encVerIsItsExpansion : Obligations.EncVerIsItsExpansion := by
  intro s v
  obtain ⟨b, hb, hadd, -, hused, hcursor, -⟩ := exec_encVer_packs s v
  have hrun : execAll [.clear, .addField 16 v, .toSeptets] s = execAll [.toSeptets] _ :=
    (execAll_cons rfl).trans (execAll_cons (exec_addField_ok (s := (s.withBuf s.buf.clear).respond .ok 0 []) hadd))
  refine ⟨_, _, b.toSeptets, hb, hrun.trans (execAll_cons rfl), ⟨rfl, rfl, rfl⟩, ?_, rfl, hused, hcursor,
    by rw [toSeptets_length, hused]; rfl, rfl, rfl, rfl, rfl⟩
  simp [okEmpty]

end Sys2Proof.Machine
end

section
/-! DECCFG: what it loads and unpacks (42_schema_codec.md R127, R131). -/

namespace Sys2Proof.Machine

/-- All that DECCFG does with a payload that fits: it loads the stream and walks over the fields from the start. -/
theorem exec_decCfg_loads {n : Half} {s : State} {payload rest : List Byte} (hd : s.din = payload ++ rest)
    (hl : payload.length = n.toNat) (hn : n.toNat ≤ 18) :
    ∃ (t : State), exec (.decCfg n) s = .next t ∧ t.buf.used.toNat = 7 * n.toNat ∧
      t.buf.cursor.toNat = walkEnd (7 * n.toNat) (List.finRange 14) 0 ∧
      (∀ a w, bitRead t.buf.store a w = streamField payload a w) ∧
      (∀ i, bitAt t.buf.store i = (decide (i < 7 * n.toNat) && streamBit payload i)) ∧
      (∀ p ∈ places (7 * n.toNat) (List.finRange 14) 0,
        (readRec t.recs p.1).toNat = p.2.elim 0 fun a => streamField payload a (specWidth p.1)) ∧
      t.din = rest ∧ Replied s t okEmpty := by
  obtain ⟨b, hb⟩ := fromSeptets_succeeds s.buf.clear (bytes := payload) (by omega)
  obtain ⟨-, hused, hcursor, -⟩ := fromSeptets_ok hb
  obtain ⟨r, b', hr, hstore', hused', hcursor', hplaces⟩ :=
    unpackRecord_places (List.finRange 14) b s.recs (List.nodup_finRange 14)
  have hcur : b.cursor.toNat = 0 := congrArg BitVec.toNat hcursor
  rw [hused, hl, hcur] at hcursor' hplaces
  simp only [bitRead_fromSeptets hb, fieldWidth_eq] at hplaces
  refine ⟨_, exec_decCfg hd hl hb hr, (congrArg BitVec.toNat hused').trans (hl ▸ hused), hcursor', fun a w => ?_, fun i => ?_,
    hplaces, rfl, rfl, rfl, rfl⟩
  · exact hstore' ▸ bitRead_fromSeptets hb a w
  · rw [← hl, ← streamBit_eq_decide_and]
    exact hstore' ▸ bitAt_fromSeptets hb i

/-- Where field `i` is read when `u` bits are loaded, if the fields before it leave no bits over for a narrower one. -/
def fieldPlace (u : Nat) (i : Fin 14) : Option Nat :=
  if specOffset i + specWidth i ≤ u then some (specOffset i) else none

/-- With 9 septets, and no other number, an underflow leaves bits that a later, narrower field reads (42_schema_codec.md R131). -/
theorem places_of_septets :
    ∀ n ≤ 18, n ≠ 9 → places (7 * n) (List.finRange 14) 0 = (List.finRange 14).map fun i => (i, fieldPlace (7 * n) i) := by
  decide

theorem walkEnd_of_septets : ∀ n ≤ 18, 13 ≤ n → walkEnd (7 * n) (List.finRange 14) 0 = 87 := by decide

/-- The registers after DECCFG with a number of septets other than 9: each field that fits, and 0 for the others. -/
theorem exec_decCfg_fields {n : Half} {s : State} {payload rest : List Byte} (hd : s.din = payload ++ rest)
    (hl : payload.length = n.toNat) (hn : n.toNat ≤ 18) (hnine : n.toNat ≠ 9) :
    ∃ (t : State), exec (.decCfg n) s = .next t ∧ t.buf.used.toNat = 7 * n.toNat ∧
      t.buf.cursor.toNat = walkEnd (7 * n.toNat) (List.finRange 14) 0 ∧
      (∀ i, bitAt t.buf.store i = (decide (i < 7 * n.toNat) && streamBit payload i)) ∧
      (∀ i : Fin 14, t.recs[i].toNat =
        if specOffset i + specWidth i ≤ 7 * n.toNat then streamField payload (specOffset i) (specWidth i) else 0) ∧
      t.din = rest ∧ Replied s t okEmpty := by
  obtain ⟨t, ht, hused, hcursor, -, hbit, hplaces, hdin, hrep⟩ := exec_decCfg_loads hd hl hn
  refine ⟨t, ht, hused, hcursor, hbit, fun i => ?_, hdin, hrep⟩
  rw [places_of_septets _ hn hnine] at hplaces
  refine (hplaces _ (List.mem_map_of_mem (List.mem_finRange i))).trans ?_
  unfold fieldPlace
  split <;> rfl

/-- Settles O39: 13 septets hold all 87 bits of the fields. -/
theorem decCfgUnpacksRecord : Obligations.DecCfgUnpacksRecord := by
  intro s n payload rest hd hl hlow hhigh
  obtain ⟨t, ht, hused, hcursor, hbit, hfields, hdin, hrep⟩ := exec_decCfg_fields hd hl hhigh (by omega)
  rw [walkEnd_of_septets _ hhigh hlow] at hcursor
  refine ⟨t, ht, hused, BitVec.eq_of_toNat_eq hcursor, hbit, fun i => ?_, hdin, hrep⟩
  have hend := specField_end_le i
  exact (hfields i).trans (if_pos (by omega))

/-- Settles O40: the fields that fit, when the payload is not the one of 9 bytes. -/
theorem shortConfigurationReadsZeros : Obligations.ShortConfigurationReadsZeros := by
  intro s n payload rest hd hl hlow hnine
  obtain ⟨t, ht, hused, -, hframe⟩ := exec_decCfg_fields hd hl (by omega) hnine
  exact ⟨t, ht, hused, hframe⟩

/-- The walk over 63 bits: field 10 underflows at bit 50, field 11 reads there, the last two underflow at bit 57. -/
theorem places_of_nine_septets :
    places (7 * 9) (List.finRange 14) 0 =
      ((List.finRange 14).take 10).map (fun i => (i, some (specOffset i))) ++
        [(10, none), (11, some 50), (12, none), (13, none)] := by
  decide

/-- Settles O41: by that walk. -/
theorem nineSeptetConfiguration : Obligations.NineSeptetConfiguration := by
  intro s payload rest hd hl
  obtain ⟨t, ht, hused, hcursor, -, -, hplaces, hdin, hrep⟩ := exec_decCfg_loads (n := 9) hd hl (by decide)
  have hnine : (9 : Half).toNat = 9 := rfl
  rw [hnine, places_of_nine_septets] at hplaces
  have hzero (i : Fin 14) (hmem : (i, none) ∈ places (7 * 9) (List.finRange 14) 0) : readRec t.recs i = 0 :=
    BitVec.eq_of_toNat_eq (hplaces _ (places_of_nine_septets ▸ hmem))
  refine ⟨t, ht, BitVec.eq_of_toNat_eq hused, BitVec.eq_of_toNat_eq (hcursor.trans (by decide)), fun i hi => ?_,
    hzero 10 (by decide), hplaces (11, some 50) (by decide), hzero 12 (by decide), hzero 13 (by decide), hdin, hrep⟩
  refine hplaces (i, some (specOffset i)) (List.mem_append_left _ (List.mem_map_of_mem ?_))
  decide +revert

end Sys2Proof.Machine
end

section
/-! DECVER: what it loads and returns (42_schema_codec.md R129, R131). -/

namespace Sys2Proof.Machine

/-- All that the EXTRACT 16 of DECVER does with a loaded stream: it reads the first 16 bits, or underflows below 3 bytes. -/
theorem extract_version {b b' : BitBuffer} {payload : List Byte} (hb : b.fromSeptets payload = .ok b') :
    ∃ r c, b'.extract 16 = .ok (r, c) ∧ c.used.toNat = 7 * payload.length ∧
      r.toNat = (if 3 ≤ payload.length then streamField payload 0 16 else 0) ∧
      c.cursor.toNat = (if 3 ≤ payload.length then 16 else 0) ∧ ∀ i, bitAt c.store i = streamBit payload i := by
  obtain ⟨-, hused, hcursor, -⟩ := fromSeptets_ok hb
  have hcur : b'.cursor.toNat = 0 := congrArg BitVec.toNat hcursor
  obtain ⟨r, c, hx⟩ := extract_succeeds (b := b') (w := 16) le_rfl
  obtain ⟨-, hstore, hcused, hcase⟩ := extract_ok hx
  rw [hcur, hused] at hcase
  refine ⟨r, c, hx, hcused ▸ hused, ?_, ?_, fun i => hstore ▸ bitAt_fromSeptets hb i⟩ <;>
    obtain ⟨hfits, hread, hmove⟩ | ⟨hshort, hread, hmove⟩ := hcase
  · rw [if_pos (by omega), hread, bitRead_fromSeptets hb]
  · rw [if_neg (by omega), hread]; rfl
  · rw [if_pos (by omega), hmove]
  · rw [if_neg (by omega), hmove, hcur]

/-- Settles O42: the load and the EXTRACT of the expansion. -/
theorem decVerReturnsVersion : Obligations.DecVerReturnsVersion := by
  intro s n payload rest hd hl hn
  obtain ⟨b, hb⟩ := fromSeptets_succeeds s.buf.clear (bytes := payload) (by omega)
  obtain ⟨r, c, hx, hused, hread, hcursor, hbit⟩ := extract_version hb
  rw [← hl]
  refine ⟨_, r, exec_decVer hd hl hb hx, hread, hused, hcursor, fun i => ?_, rfl, rfl, rfl, rfl, rfl⟩
  exact (hbit i).trans (streamBit_eq_decide_and payload i)

end Sys2Proof.Machine
end

section
/-! DECCFG and DECVER as sequences of layer-1 commands (42_schema_codec.md R120, R127, R129). -/

namespace Sys2Proof.Machine

/-- The EXTRACTs of the widths of some fields leave the buffer that unpacking them leaves, and return what that writes into the
registers. -/
theorem execAll_extracts_of_unpackRecord {is : List (Fin 14)} {s : State} {r r' : Records} {b' : BitBuffer} (hnodup : is.Nodup)
    (h : unpackRecord is s.buf r = .ok (r', b')) :
    ∃ u, execAll (extracts (is.map fun i => BitVec.ofNat 5 (specWidth i))) s = .next u ∧ u.buf = b' ∧
      u.responses = s.responses ++ is.map (fun i => ⟨.ok, readRec r' i, []⟩) ∧ u.din = s.din := by
  induction is generalizing s r with
  | nil => cases h; exact ⟨s, rfl, rfl, by simp, rfl⟩
  | cons i is ih =>
    obtain ⟨hnotmem, hrest⟩ := List.nodup_cons.mp hnodup
    obtain ⟨v, b, hx⟩ := extract_succeeds (b := s.buf) (fieldWidth_le i)
    simp only [unpackRecord, hx] at h
    obtain ⟨u, hu, hubuf, huresp, hudin⟩ := ih (s := (s.withBuf b).respond .ok v []) hrest h
    obtain ⟨_, _, htotal, -, -, -, hother⟩ := unpackRecord_total is b (writeRec r i v)
    cases htotal.symm.trans h
    have hv : readRec r' i = v := by rw [hother i hnotmem, readRec_writeRec, if_pos rfl]
    rw [fieldWidth_eq, ← toNat_ofNat_specWidth] at hx
    exact ⟨u, (execAll_cons (exec_extract_ok hx)).trans hu, hubuf, by simp [huresp, hv], hudin⟩

/-- CLEAR and FROMSEPTETS at the head of an expansion load the buffer that the decoding command loads. -/
theorem execAll_clear_fromSeptets {n : Half} {s : State} {payload rest : List Byte} {b : BitBuffer} (is : List Instr)
    (hd : s.din = payload ++ rest) (hl : payload.length = n.toNat) (hb : s.buf.clear.fromSeptets payload = .ok b) :
    ∃ u : State, execAll (.clear :: .fromSeptets n :: is) s = execAll is u ∧ u.buf = b ∧
      u.responses = s.responses ++ [okEmpty, okEmpty] ∧ u.recs = s.recs ∧ u.din = rest := by
  have hload := exec_fromSeptets (s := (s.withBuf s.buf.clear).respond .ok 0 []) hd hl hb
  exact ⟨_, (execAll_cons rfl).trans (execAll_cons hload), rfl, by simp [okEmpty], rfl, rfl⟩

theorem toList_eq_map_readRec (r : Records) : r.toList = (List.finRange 14).map (readRec r) := by
  apply List.ext_getElem
  · simp
  · intro i h1 h2
    simp [readRec]

/-- Settles O45: the walk of DECCFG is the run of its EXTRACTs. -/
theorem decCfgIsItsExpansion : Obligations.DecCfgIsItsExpansion := by
  refine fun s n payload rest hd hl => ⟨fun hn => ?_, fun hlong => ?_⟩
  · obtain ⟨b, hb⟩ := fromSeptets_succeeds s.buf.clear (bytes := payload) (by omega)
    obtain ⟨v, hrun, rfl, hvresp, -, hvdin⟩ := execAll_clear_fromSeptets (extracts specWidths) hd hl hb
    obtain ⟨r, b', hr, -⟩ := unpackRecord_total (List.finRange 14) v.buf s.recs
    obtain ⟨u, hu, hubuf, huresp, hudin⟩ := execAll_extracts_of_unpackRecord (List.nodup_finRange 14) hr
    have ht := exec_decCfg hd hl hb hr
    obtain ⟨t, ht', hused, hcursor, -⟩ := exec_decCfg_loads hd hl hn
    cases ht'.symm.trans ht
    refine ⟨_, u, ht, hrun.trans hu, ⟨rfl, rfl, rfl⟩, ?_, hubuf.symm, hused, fun hlow => ?_, rfl, hudin.trans hvdin⟩
    · rw [huresp, hvresp, respond_recs, withRecs_recs, toList_eq_map_readRec, List.map_map]
      rfl
    · exact BitVec.eq_of_toNat_eq (hcursor.trans (walkEnd_of_septets _ hn hlow))
  · exact ⟨_, (exec_decode_long hd hl (by omega)).1, rfl, rfl, rfl, rfl, rfl, rfl⟩

/-- Settles O46: the EXTRACT of the expansion is the one that DECVER makes. -/
theorem decVerIsItsExpansion : Obligations.DecVerIsItsExpansion := by
  refine fun s n payload rest hd hl => ⟨fun hn => ?_, fun hlong => ?_⟩
  · obtain ⟨b, hb⟩ := fromSeptets_succeeds s.buf.clear (bytes := payload) (by omega)
    obtain ⟨v, hrun, rfl, hvresp, hvrecs, hvdin⟩ := execAll_clear_fromSeptets [.extract 16] hd hl hb
    obtain ⟨r, c, hx, hused, -, hcursor, -⟩ := extract_version hb
    rw [hl] at hused hcursor
    refine ⟨_, _, r, exec_decVer hd hl hb hx, hrun.trans (execAll_cons (exec_extract_ok hx)), ⟨rfl, rfl, rfl⟩, ?_, rfl, hused,
      hcursor, rfl, hvrecs, rfl, hvdin⟩
    simp [hvresp]
  · exact ⟨_, (exec_decode_long hd hl (by omega)).2, rfl, rfl, rfl, rfl, rfl, rfl⟩

end Sys2Proof.Machine
end

section
/-! From one layer-2 command to the next: bytes never read, round trips, layer 1 after layer 2 (42_schema_codec.md R131 to R133). -/

namespace Sys2Proof.Machine

/-- Settles O47: a field read within the first bytes of a stream is a field of those bytes. -/
theorem extraSeptetsAreNeverRead : Obligations.ExtraSeptetsAreNeverRead := by
  refine ⟨fun s n payload extra rest hl hn hle => ?_, fun s n payload extra rest hl hn hle => ?_⟩ <;>
    rw [List.length_append] at hn
  · obtain ⟨t, ht, -, -, -, htrecs, -, htrep⟩ :=
      decCfgUnpacksRecord { s with din := payload ++ extra ++ rest } n (payload ++ extra) rest rfl (by simp [hn]) (by omega) hle
    obtain ⟨u, hu, -, -, -, hurecs, -, hurep⟩ :=
      decCfgUnpacksRecord { s with din := payload ++ rest } 13 payload rest rfl hl (by decide) (by decide)
    refine ⟨t, u, ht, hu, records_ext fun i => BitVec.eq_of_toNat_eq ?_, htrep.1.trans hurep.1.symm⟩
    have hend := specField_end_le i
    exact ((htrecs i).trans (streamField_append extra (by omega))).trans (hurecs i).symm
  · obtain ⟨t, r, ht, hr, -, -, -, -, -, htrep⟩ :=
      decVerReturnsVersion { s with din := payload ++ extra ++ rest } n (payload ++ extra) rest rfl (by simp [hn]) hle
    obtain ⟨u, r', hu, hr', -, -, -, -, -, hurep⟩ :=
      decVerReturnsVersion { s with din := payload ++ rest } 3 payload rest rfl hl (by decide)
    have hsame : r = r' := BitVec.eq_of_toNat_eq (by
      rw [hr, hr', if_pos (by omega), if_pos (by decide), streamField_append extra (by omega)])
    exact ⟨t, u, ht, hu, htrep.1.trans (hsame ▸ hurep.1.symm)⟩

/-- Settles O48: the payload shows the sender's store, where the fields stand cut to their widths. -/
theorem configurationRoundTrip : Obligations.ConfigurationRoundTrip := by
  intro s
  obtain ⟨b, hb, hinv, hused, -, hbits⟩ := exec_encCfg_packs s
  refine ⟨_, b.toSeptets, hb, ⟨rfl, rfl, rfl⟩, fun q rest hd => ?_⟩
  have hlen : b.toSeptets.length = 13 := by rw [toSeptets_length, hused]; rfl
  obtain ⟨u, hu, -, -, -, hrecs, -, hrep⟩ := decCfgUnpacksRecord q 13 b.toSeptets rest hd hlen (by decide) (by decide)
  have hmod (i : Fin 14) : u.recs[i].toNat = s.recs[i].toNat % 2 ^ specWidth i := by
    rw [hrecs, streamField_toSeptets hinv]
    exact bitRead_packed hbits i
  refine ⟨u, hu, hrep, hmod, fun hfit => records_ext fun i => BitVec.eq_of_toNat_eq ?_⟩
  exact (hmod i).trans (Nat.mod_eq_of_lt (hfit i))

/-- Settles O49: the payload shows the sender's store, which begins with the version. -/
theorem versionRoundTrip : Obligations.VersionRoundTrip := by
  intro s v
  obtain ⟨b, hb, -, hinv, hused, -, hbits⟩ := exec_encVer_packs s v
  refine ⟨_, b.toSeptets, hb, ⟨rfl, rfl, rfl⟩, fun q rest hd => ?_⟩
  have hlen : b.toSeptets.length = 3 := by rw [toSeptets_length, hused]; rfl
  obtain ⟨u, r, hu, hr, -, -, -, -, -, hrep⟩ := decVerReturnsVersion q 3 b.toSeptets rest hd hlen (by decide)
  rw [if_pos (by decide), streamField_toSeptets hinv, bitRead_packedVersion hbits] at hr
  exact ⟨u, hu, BitVec.eq_of_toNat_eq hr ▸ hrep⟩

/-- Settles O50: ENCCFG leaves the buffer whose septets it returned, and DECCFG of 13 bytes leaves the cursor before the four pad
bits. -/
theorem layerOneReadsWhatLayerTwoLeft : Obligations.LayerOneReadsWhatLayerTwoLeft := by
  refine ⟨fun s => ?_, fun s payload rest hl hd => ?_⟩
  · obtain ⟨b, hb, -, hused, -⟩ := exec_encCfg_packs s
    exact ⟨_, _, b.toSeptets, hb, exec_toSeptets _, by rw [toSeptets_length, hused]; rfl, List.append_assoc ..⟩
  · obtain ⟨t, ht, hused, hcursor, hread, -, -, -, hresp, -⟩ := exec_decCfg_loads (n := 13) hd hl (by decide)
    have hcur : t.buf.cursor.toNat = 87 := hcursor.trans (by decide)
    have huse : t.buf.used.toNat = 91 := hused
    obtain ⟨r, c, hx⟩ := extract_succeeds (b := t.buf) (w := 4) (by decide)
    obtain ⟨-, -, -, ⟨-, hr, -⟩ | ⟨hshort, -⟩⟩ := extract_ok hx
    · refine ⟨t, _, r, ht, exec_extract_ok (w := 4) hx, ?_, by simp [hresp]⟩
      rw [hr, hcur, hread]
      exact streamField_low (bytes := payload) (k := 12) (w := 4) (by omega) (by decide)
    · omega

end Sys2Proof.Machine
end

section
/-! What the buffer held before has no influence (42_schema_codec.md R132, 41_septet_ops.md R104). -/

namespace Sys2Proof.Machine

/-- A payload command that answers `OK` had its payload at hand, and one that fits: it did not wait, for then there were no
response, and it did not fail for the payload's length. -/
theorem payload_of_ok {i : Instr} {n : Half} {s t : State} {r : Response} {e : Status} (hcount : payloadCount i = n.toNat)
    (hlong : ∀ payload rest, s.din = payload ++ rest → payload.length = n.toNat → 128 < 7 * n.toNat →
      exec i s = .next (({ s with din := rest } : State).fail e))
    (he : e ≠ .ok) (h : exec i s = .next t) (hr : t.responses = s.responses ++ [r]) (hok : r.status = .ok) :
    ∃ payload rest, s.din = payload ++ rest ∧ payload.length = n.toNat ∧ 7 * payload.length ≤ 128 := by
  obtain hd | ⟨payload, rest, hd, hl, hn | hn⟩ := payload_cases n s
  · cases (exec_waits (hcount ▸ hd)).symm.trans h
    simp at hr
  · cases (hlong payload rest hd hl hn).symm.trans h
    have hfail : (⟨e, 0, []⟩ : Response) = r := List.singleton_inj.mp (List.append_cancel_left hr)
    rw [← hfail] at hok
    exact absurd hok he
  · exact ⟨payload, rest, hd, hl, hn⟩

/-- ENCCFG packs into a fresh buffer, whatever buffer it finds. -/
theorem exec_encCfg_withBuf (s : State) (b : BitBuffer) : exec .encCfg (s.withBuf b) = exec .encCfg s := by
  obtain ⟨c, hc, hpack⟩ := exec_encCfg s
  obtain ⟨c', hc', hpack'⟩ := exec_encCfg (s.withBuf b)
  cases hpack.symm.trans hpack'
  exact hc'.trans hc.symm

/-- ENCVER packs into a fresh buffer, whatever buffer it finds. -/
theorem exec_encVer_withBuf (v : Half) (s : State) (b : BitBuffer) :
    exec (.encVer v) (s.withBuf b) = exec (.encVer v) s := by
  obtain ⟨c, hc, hadd⟩ := exec_encVer v s
  obtain ⟨c', hc', hadd'⟩ := exec_encVer v (s.withBuf b)
  cases hadd.symm.trans hadd'
  exact hc'.trans hc.symm

/-- Settles O58: each of the five commands goes on from a fresh buffer or from what it loads. -/
theorem oldBufferHasNoInfluence : Obligations.OldBufferHasNoInfluence := by
  rintro i s t r b (rfl | ⟨v, rfl⟩ | ⟨n, rfl⟩ | ⟨n, rfl⟩ | ⟨n, rfl⟩) h hr hok
  · exact (exec_encCfg_withBuf s b).trans h
  · exact (exec_encVer_withBuf v s b).trans h
  · obtain ⟨payload, rest, hd, hl, hn⟩ :=
      payload_of_ok rfl (fun _ _ hd hl hn => (exec_decode_long hd hl hn).1) (by decide) h hr hok
    obtain ⟨c, hc⟩ := fromSeptets_succeeds s.buf.clear hn
    obtain ⟨q, c', hq, -⟩ := unpackRecord_total (List.finRange 14) c s.recs
    cases (exec_decCfg hd hl hc hq).symm.trans h
    exact exec_decCfg (s := s.withBuf b) hd hl hc hq
  · obtain ⟨payload, rest, hd, hl, hn⟩ :=
      payload_of_ok rfl (fun _ _ hd hl hn => (exec_decode_long hd hl hn).2) (by decide) h hr hok
    obtain ⟨c, hc⟩ := fromSeptets_succeeds s.buf.clear hn
    obtain ⟨q, c', hx⟩ := extract_succeeds (b := c) (w := 16) le_rfl
    cases (exec_decVer hd hl hc hx).symm.trans h
    exact exec_decVer (s := s.withBuf b) hd hl hc hx
  · obtain ⟨payload, rest, hd, hl, hn⟩ :=
      payload_of_ok rfl (fun _ _ hd hl hn => exec_fromSeptets_long hd hl hn) (by decide) h hr hok
    obtain ⟨c, hc⟩ := fromSeptets_succeeds s.buf hn
    cases (exec_fromSeptets hd hl hc).symm.trans h
    exact exec_fromSeptets (s := s.withBuf b) hd hl hc

end Sys2Proof.Machine
end

section
/-! The host's side of wpm (42_schema_codec.md R139 to R141). -/

namespace Sys2Proof.Machine

/-- A real number that is a natural number in hundredths is rounded to that number. -/
theorem round100_of_hundredths (ρ : Rounding) {wpm : ℝ} {m : ℕ} (h : 100 * wpm = m) : ρ.round100 wpm = m := by
  have hpos : 0 ≤ wpm := by have := m.cast_nonneg (α := ℝ); linarith
  obtain ⟨hlow, hhigh⟩ := abs_le.mp (ρ.near wpm hpos)
  have hle : ρ.round100 wpm < m + 1 := by exact_mod_cast (by linarith : (ρ.round100 wpm : ℝ) < m + 1)
  have hge : m < ρ.round100 wpm + 1 := by exact_mod_cast (by linarith : (m : ℝ) < ρ.round100 wpm + 1)
  omega

/-- A wpm up to 655.35 is rounded to a number of 16 bits. -/
theorem round100_lt (ρ : Rounding) {wpm : ℝ} (hpos : 0 ≤ wpm) (hle : wpm ≤ 655.35) : ρ.round100 wpm < 2 ^ 16 := by
  obtain ⟨-, hhigh⟩ := abs_le.mp (ρ.near wpm hpos)
  have hlt : (ρ.round100 wpm : ℝ) < (2 ^ 16 : ℕ) := by push_cast; linarith
  exact_mod_cast hlt

/-- The rounded value, divided by 100, is within half a hundredth (42_schema_codec.md R141). -/
theorem round100_recovered (ρ : Rounding) {wpm : ℝ} (hpos : 0 ≤ wpm) : |(ρ.round100 wpm : ℝ) / 100 - wpm| ≤ 0.005 := by
  obtain ⟨hlow, hhigh⟩ := abs_le.mp (ρ.near wpm hpos)
  rw [abs_le]
  constructor <;> linarith

/-- The field of `R[10]` is as wide as the register, so ENCCFG and DECCFG bring it to any other block uncut. -/
theorem wpm100_roundTrip (s : State) : ∃ t out, exec .encCfg s = .next t ∧ Replied s t ⟨.ok, 0, out⟩ ∧
    ∀ (q : State) (rest : List Byte), q.din = out ++ rest →
      ∃ u, exec (.decCfg 13) q = .next u ∧ u.recs[10] = s.recs[10] := by
  obtain ⟨t, out, ht, hrep, hdecode⟩ := configurationRoundTrip s
  refine ⟨t, out, ht, hrep, fun q rest hd => ?_⟩
  obtain ⟨u, hu, -, hmod, -⟩ := hdecode q rest hd
  exact ⟨u, hu, BitVec.eq_of_toNat_eq ((hmod 10).trans (Nat.mod_eq_of_lt (s.recs[10]).isLt))⟩

/-- Settles O60: up to 655.35 the rounded value fits the register, whose field is 16 bits wide, and the rounding is the only
loss. -/
theorem wpmSurvivesRoundTrip : Obligations.WpmSurvivesRoundTrip := by
  refine ⟨fun ρ _ h => wpmToRecord_neg ρ h, fun ρ wpm h => ⟨_, wpmToRecord_nonneg ρ h, BitVec.toNat_ofNat _ _⟩,
    fun ρ => ?_, ?_, fun ρ wpm s hpos hle => ?_⟩
  · rw [wpmToRecord_nonneg ρ (by norm_num), round100_of_hundredths ρ (m := 2000) (by norm_num)]
    rfl
  · have hval : (2000 : Half).toNat = 2000 := rfl
    norm_num [recordToWpm, hval]
  · obtain ⟨s', hs', hset, -⟩ := setRecWritesOneRegister.1 s 10 (BitVec.ofNat 16 (ρ.round100 wpm)) (by decide)
    obtain ⟨t, out, ht, hrep, hdecode⟩ := wpm100_roundTrip s'
    refine ⟨_, s', t, out, wpmToRecord_nonneg ρ hpos, hs', ht, hrep, fun q rest hd => ?_⟩
    obtain ⟨u, hu, hrec⟩ := hdecode q rest hd
    refine ⟨u, hu, ?_⟩
    have hval : u.recs[10].toNat = ρ.round100 wpm := by
      rw [hrec]
      exact (congrArg BitVec.toNat hset).trans (Nat.mod_eq_of_lt (round100_lt ρ hpos hle))
    rw [recordToWpm, hval]
    push_cast
    exact round100_recovered ρ hpos

end Sys2Proof.Machine
end

section
/-! Steps and failures (60_exceptions.md): every step goes on, a failure changes nothing and is not sticky. -/

namespace Sys2Proof.Machine

theorem exec_goes_on (i : Instr) (s : State) : ∃ t, exec i s = .next t :=
  (exec_cases i s).imp fun _ h => h.1

theorem stepWord_goes_on (word : CmdWord) (s : State) : ∃ t, stepWord word s = .next t := by
  unfold stepWord
  split
  next i _ => exact exec_goes_on i s
  next => exact ⟨_, rfl⟩

/-- Settles O9: each of the four things a step can be goes on. -/
theorem everyStepGoesOn : Obligations.EveryStepGoesOn := by
  intro s
  unfold step
  split
  next => exact ⟨_, rfl⟩
  next i _ _ => exact exec_goes_on i s
  next => exact ⟨_, rfl⟩
  next word payload rest _ _ => exact stepWord_goes_on word _

/-- Settles O7: the step's third case, in which there is nothing to do. -/
theorem idleStepChangesNothing : Obligations.IdleStepChangesNothing := by
  intro s hhost hbusy
  simp only [step, hhost, hbusy]

section
variable {i : Instr} {s t : State} {r : Response}

/-- A command that has returned a response has ended: while it waits it returns none (70_reset_and_hazards.md R189). -/
theorem exec_ended_of_response (h : exec i s = .next t) (hr : t.responses = s.responses ++ [r]) : Ended i s t := by
  obtain ⟨t', ht, ⟨-, -, rfl⟩ | ⟨-, hend⟩⟩ := exec_cases i s <;> cases ht.symm.trans h
  · simp at hr
  · exact hend

theorem Ended.failure (h : Ended i s t) (hr : t.responses = s.responses ++ [r]) (hfail : r.status ≠ .ok) :
    t.buf = s.buf ∧ t.recs = s.recs ∧ r.result = 0 ∧ r.payload = [] := by
  obtain ⟨st, res, out, hresp, -, -, -, hkeep, -⟩ := h
  obtain rfl : r = ⟨st, res, out⟩ := List.singleton_inj.mp (List.append_cancel_left (hr.symm.trans hresp))
  exact hkeep hfail

/-- Settles O51: a command that failed has ended, and an issued word is performed as its command or is illegal. -/
theorem failureChangesNothing : Obligations.FailureChangesNothing := by
  refine ⟨fun i s t r h hr => (exec_ended_of_response h hr).failure hr,
    fun s t word payload rest r hbusy hhost h hr hfail => ?_⟩
  rw [step_command hbusy hhost] at h
  obtain ⟨i, -, hi⟩ | ⟨e, -, rfl⟩ := stepWord_cases h
  · exact (exec_ended_of_response hi hr).failure hr hfail
  · obtain rfl : r = failed .errIllegal := List.singleton_inj.mp (List.append_cancel_left hr.symm)
    exact ⟨rfl, rfl, rfl, rfl⟩

/-- The same block between two commands, after other responses. -/
def State.withLog (s : State) (log : List Response) : State := { s with busy := none, responses := log }

@[simp] theorem withLog_buf (s : State) (log : List Response) : (s.withLog log).buf = s.buf := rfl
@[simp] theorem withLog_recs (s : State) (log : List Response) : (s.withLog log).recs = s.recs := rfl

/-- All that a failed command leaves behind, once the channel is refilled, is its response (60_exceptions.md R160). -/
theorem Ended.failure_refilled (h : Ended i s t) (hr : t.responses = s.responses ++ [r]) (hfail : r.status ≠ .ok)
    (bytes : List Byte) :
    ({ t with din := bytes } : State) = ({ s with din := bytes } : State).withLog t.responses := by
  obtain ⟨hbuf, hrecs, -, -⟩ := h.failure hr hfail
  obtain ⟨-, -, -, -, hbusy, hhost, -⟩ := h
  simp only [State.withLog, hbuf, hrecs, hbusy, hhost]

end

/-- From `s` the command `i` returns one response, and it does the same after any other responses. -/
def IgnoresLog (i : Instr) (s : State) : Prop :=
  ∃ t r, exec i s = .next t ∧ t.responses = s.responses ++ [r] ∧
    ∀ log, exec i (s.withLog log) = .next (t.withLog (log ++ [r]))

/-- A command with its payload at hand looks at the buffer, the registers and the channel, and at nothing else. -/
theorem exec_ignoresLog (i : Instr) (s : State) (h : payloadCount i ≤ s.din.length) : IgnoresLog i s := by
  cases i with
  | clear => exact ⟨_, _, rfl, rfl, fun _ => rfl⟩
  | addField w v =>
    simp only [IgnoresLog, exec, execAddField, withLog_buf]
    split <;> exact ⟨_, _, rfl, rfl, fun _ => rfl⟩
  | extract w =>
    simp only [IgnoresLog, exec, execExtract, withLog_buf]
    split <;> exact ⟨_, _, rfl, rfl, fun _ => rfl⟩
  | toSeptets => exact ⟨_, _, rfl, rfl, fun _ => rfl⟩
  | fromSeptets n =>
    obtain ⟨payload, rest, hd, hl, hn | hn⟩ := (payload_cases n s).resolve_left (Nat.not_lt.mpr h)
    · exact ⟨_, _, exec_fromSeptets_long hd hl hn, rfl, fun log => exec_fromSeptets_long (s := s.withLog log) hd hl hn⟩
    · obtain ⟨b, hb⟩ := fromSeptets_succeeds s.buf hn
      exact ⟨_, _, exec_fromSeptets hd hl hb, rfl, fun log => exec_fromSeptets (s := s.withLog log) hd hl hb⟩
  | setRec w v =>
    simp only [IgnoresLog, exec, execSetRec]
    split <;> exact ⟨_, _, rfl, rfl, fun _ => rfl⟩
  | getRec w =>
    simp only [IgnoresLog, exec, execGetRec]
    split <;> exact ⟨_, _, rfl, rfl, fun _ => rfl⟩
  | encCfg =>
    obtain ⟨b, hb, hpack⟩ := exec_encCfg s
    refine ⟨_, _, hb, rfl, fun log => ?_⟩
    obtain ⟨b', hb', hpack'⟩ := exec_encCfg (s.withLog log)
    cases hpack.symm.trans hpack'
    exact hb'
  | decCfg n =>
    obtain ⟨payload, rest, hd, hl, hn | hn⟩ := (payload_cases n s).resolve_left (Nat.not_lt.mpr h)
    · exact ⟨_, _, (exec_decode_long hd hl hn).1, rfl, fun log => (exec_decode_long (s := s.withLog log) hd hl hn).1⟩
    · obtain ⟨b, hb⟩ := fromSeptets_succeeds s.buf.clear hn
      obtain ⟨q, b', hq, -⟩ := unpackRecord_total (List.finRange 14) b s.recs
      exact ⟨_, _, exec_decCfg hd hl hb hq, rfl, fun log => exec_decCfg (s := s.withLog log) hd hl hb hq⟩
  | encVer v =>
    obtain ⟨b, hb, hadd⟩ := exec_encVer v s
    refine ⟨_, _, hb, rfl, fun log => ?_⟩
    obtain ⟨b', hb', hadd'⟩ := exec_encVer v (s.withLog log)
    cases hadd.symm.trans hadd'
    exact hb'
  | decVer n =>
    obtain ⟨payload, rest, hd, hl, hn | hn⟩ := (payload_cases n s).resolve_left (Nat.not_lt.mpr h)
    · exact ⟨_, _, (exec_decode_long hd hl hn).2, rfl, fun log => (exec_decode_long (s := s.withLog log) hd hl hn).2⟩
    · obtain ⟨b, hb⟩ := fromSeptets_succeeds s.buf.clear hn
      obtain ⟨q, b', hx⟩ := extract_succeeds (b := b) (w := 16) le_rfl
      exact ⟨_, _, exec_decVer hd hl hb hx, rfl, fun log => exec_decVer (s := s.withLog log) hd hl hb hx⟩

/-- Settles O52: the failed command left only its response behind, and the next command does not look at responses. -/
theorem failureIsNotSticky : Obligations.FailureIsNotSticky := by
  intro i j s t r bytes h hr hfail hcount
  rw [(exec_ended_of_response h hr).failure_refilled hr hfail bytes]
  obtain ⟨v, q, hv, hq, hlog⟩ := exec_ignoresLog j { s with din := bytes } hcount
  exact ⟨_, v, q, hlog t.responses, hv, rfl, rfl, rfl, rfl, hq⟩

end Sys2Proof.Machine
end


section
/-! Reset (70_reset_and_hazards.md R180 to R182): the fresh block, the move `rst` and first commands after it. -/

namespace Sys2Proof.Machine

/-! ### The reset state -/

theorem readRec_reset (i : Fin 14) : readRec State.reset.recs i = 0 := Vector.getElem_replicate i.isLt

/-- Record registers that are all zero are those of reset (R181). -/
theorem recs_eq_reset_of_zero {q : Records} (h : ∀ i : Fin 14, q[i] = 0) : q = State.reset.recs :=
  records_ext fun i => (h i).trans (readRec_reset i).symm

theorem clear_eq_reset (b : BitBuffer) : b.clear = State.reset.buf := rfl

theorem exec_clear (s : State) : exec .clear s = .next ((s.withBuf s.buf.clear).respond .ok 0 []) := rfl

/-- Settles O1: each part is fresh in the reset state, and CLEAR leaves the registers alone. -/
theorem resetLeavesFreshBlock : Obligations.ResetLeavesFreshBlock :=
  ⟨bitAt_zero, rfl, rfl, readRec_reset, rfl, rfl, rfl,
    fun s hzero => ⟨_, exec_clear s, clear_eq_reset s.buf, recs_eq_reset_of_zero hzero⟩⟩

/-! ### The move `rst` -/

/-- `rst` acts whether or not a command waits (R180). -/
theorem step_rst {s : State} {rest : List HostMove} (h : s.host = .rst :: rest) : step s = .next (s.applyReset rest) := by
  simp only [step, h]

/-- Settles O6: the next state is the reset one, and its channel depends on whether a command was waiting. -/
theorem resetMoveRestoresResetState : Obligations.ResetMoveRestoresResetState := by
  intro s rest hhost
  exact ⟨_, step_rst hhost, rfl, rfl, rfl, rfl, rfl, fun hbusy => by simp [hbusy], fun i hbusy => by simp [hbusy]⟩

/-! ### First commands after reset -/

/-- EXTRACT where nothing is left to read gives 0: either it asks for no bit or it underflows (40_bitbuffer_ops.md R82). -/
theorem extract_exhausted {b : BitBuffer} {w : Nat} (hw : w ≤ 16) (h : b.used.toNat ≤ b.cursor.toNat) :
    ∃ b', b.extract w = .ok (0, b') := by
  obtain ⟨r, b', hx⟩ := extract_succeeds (b := b) hw
  obtain ⟨-, -, -, ⟨hfits, hread, -⟩ | ⟨-, rfl, -⟩⟩ := extract_ok hx
  · obtain rfl : w = 0 := by omega
    obtain rfl : r = 0 := BitVec.eq_of_toNat_eq hread
    exact ⟨b', hx⟩
  · exact ⟨b', hx⟩

theorem specConfigPayload_reset : specConfigPayload State.reset.recs = (List.replicate 13 (0 : Byte)).map BitVec.toNat := by
  decide

/-- ENCCFG of zero registers: its payload, known septet by septet, is zero (30_encoding.md R66). -/
theorem exec_encCfg_reset :
    ∃ t, exec .encCfg State.reset = .next t ∧ t.responses = [⟨.ok, 0, List.replicate 13 0⟩] := by
  obtain ⟨t, out, ht, hresp, hout⟩ := configurationPayloadLayout State.reset
  obtain rfl : out = List.replicate 13 0 :=
    List.map_injective_iff.mpr (fun _ _ => BitVec.eq_of_toNat_eq) (hout.trans specConfigPayload_reset)
  exact ⟨t, ht, hresp⟩

/-- Settles O10: the empty buffer has no septet and no bit to give, and every register reads 0. -/
theorem firstCommandAfterReset : Obligations.FirstCommandAfterReset := by
  refine ⟨⟨_, exec_toSeptets _, rfl⟩, fun w hw => ?_, exec_encCfg_reset, fun i hi => ?_⟩
  · obtain ⟨b, hb⟩ := extract_exhausted (b := State.reset.buf) hw le_rfl
    exact ⟨_, exec_extract_ok hb, rfl⟩
  · refine ⟨_, exec_getRec _ (Nat.lt_succ_of_le hi), ?_⟩
    rw [readRec_reset]
    rfl

end Sys2Proof.Machine
end

section
/-! The wait for a short payload (70_reset_and_hazards.md R189, R190). -/

namespace Sys2Proof.Machine

/-- While a command waits, a step other than `rst` is that command tried again (R190). -/
theorem step_waiting {i : Instr} {s : State} (hbusy : s.busy = some i) (hhost : ∀ rest, s.host ≠ .rst :: rest) :
    step s = exec i s := by
  unfold step
  split
  next rest hrst => exact absurd hrst (hhost rest)
  next j hj _ => rw [Option.some.inj (hbusy.symm.trans hj)]
  next hnone => cases hbusy.symm.trans hnone
  next hnone => cases hbusy.symm.trans hnone

/-- A command that waits and still lacks bytes is left waiting: trying it again changes nothing. -/
theorem exec_waits_again {i : Instr} {s : State} (hbusy : s.busy = some i) (hshort : s.din.length < payloadCount i) :
    exec i s = .next s := by
  rw [exec_waits hshort, ← hbusy]

/-- Settles O8: the wait begins in `exec`, and a step that is not `rst` tries the waiting command again. -/
theorem shortPayloadWaits : Obligations.ShortPayloadWaits :=
  ⟨fun _ _ hshort => exec_waits hshort,
    fun _ _ hbusy hshort hhost => (step_waiting hbusy hhost).trans (exec_waits_again hbusy hshort)⟩

end Sys2Proof.Machine
end
